-- ==== Sys2Proof/Word.lean ====
section
/-! DEFINITION. The two word sizes of the block: a byte and the 16-bit checksum word (spec/00_scope.md R8, R10). -/

namespace Sys2Proof

/-- A byte: 8 bits, unsigned (R8). -/
abbrev Byte := BitVec 8

/-- A 16-bit value: the checksum and the accumulator `CRC_ACC` (R10, R22). -/
abbrev Word := BitVec 16

end Sys2Proof
end

