-- ==== Sys2Proof/Config.lean ====
section
/-! DEFINITION. The parameters of spec/00_scope.md R7: the fixed numbers as constants, the open ones as a record. -/

namespace Sys2Proof

/-- A frame dialect (R1): length-status, or fixed-length. The value of `CFG.DIALECT` (R21). -/
inductive Dialect where
  /-- `LS`, encoded 0. -/
  | ls
  /-- `FX`, encoded 1. -/
  | fx
  deriving DecidableEq, Repr

namespace Config

/-- `CRC_INIT` (R7, R91). -/
def crcInit : Word := 0xFFFF#16
/-- `CRC_POLY`, XORed in after a shift-out of 1 (R7, R90). -/
def crcPoly : Word := 0x8408#16
/-- `LS_OVERHEAD`: the Length of an empty payload (R7, R62). -/
def lsOverhead : Nat := 4
/-- `LS_MAX_PAYLOAD`: the largest payload whose Length fits a byte (R7, R106). -/
def lsMaxPayload : Nat := 251
/-- `LS_MIN_FRAME`: the shortest frame FP.PARSE accepts (R7, R136). -/
def lsMinFrame : Nat := 5
/-- `FX_LEN`: the size of a fixed-dialect response frame (R7, R118). -/
def fxLen : Nat := 19
/-- `FX_ANT_OFF` (R7, R154). -/
def fxAntOff : Nat := 4
/-- `FX_RSSI_OFF` (R7, R154). -/
def fxRssiOff : Nat := 6
/-- `BUF_CAP`: the bytes of `RX_BUF` (R7, R25). -/
def bufCap : Nat := 256
/-- `RSSI_THRESHOLD`, a parameter of the host's aggregator (R7, R185). -/
def rssiThreshold : Nat := 60

end Config

/-- The parameters an implementation fixes (R7, 92_eei_decisions.md O5 and O6). A machine keeps its record for ever;
a statement over all states is a statement over all records. -/
structure Params where
  /-- `DIALECT_RESET`: what reset puts into `CFG.DIALECT`. -/
  dialectReset : Dialect
  /-- `FX_TID_LO`: first TID offset of a fixed-dialect frame, inclusive (90_conflicts.md C1). -/
  fxTidLo : Nat
  /-- `FX_TID_HI`: last TID offset, inclusive (90_conflicts.md C1, C3). -/
  fxTidHi : Nat
  deriving DecidableEq, Repr

/-- DESIGN CHOICE (log 9): the defaults the spec names in R7: `LS`, 7 and 16. Unsafe for a statement about another
instance. -/
def Params.default : Params := { dialectReset := .ls, fxTidLo := 7, fxTidHi := 16 }

/-- The records R154's slice is defined for: the TID range lies inside the 19 bytes (R9). -/
def Params.wf (p : Params) : Bool := decide (p.fxTidLo ≤ p.fxTidHi) && decide (p.fxTidHi < Config.fxLen)

end Sys2Proof
end

