-- ==== Sys2Proof/Machine/Bytes.lean ====
section
/-! DEFINITION. Bytes and byte sequences: byte order, slices, hexadecimal text (spec/00_scope.md R8 to R13). -/

namespace Sys2Proof.Machine

/-- `le16(lo, hi) = zext_16(lo) + 256 * zext_16(hi)` (R10). -/
def le16 (lo hi : Byte) : Word := lo.setWidth 16 + 256#16 * hi.setWidth 16

/-- `lo8(v) = v[7:0]` (R10). -/
def lo8 (v : Word) : Byte := v.setWidth 8

/-- `hi8(v) = v[15:8]` (R10). -/
def hi8 (v : Word) : Byte := (v >>> 8).setWidth 8

/-- The half-open slice `s[a .. b)` (R9), defined by the spec for `a <= b <= len(s)`. -/
def slice (s : List Byte) (a b : Nat) : List Byte := (s.take b).drop a

/-- `s[i]` (R9). The spec defines it for `i < len(s)`, and every caller checks that first (R52). -/
def byteAt (s : List Byte) (i : Nat) : Byte := s.getD i 0

/-- The lower-case digits of R13. -/
def hexDigitsLower : List Char := ['0', '1', '2', '3', '4', '5', '6', '7', '8', '9', 'a', 'b', 'c', 'd', 'e', 'f']

/-- The upper-case digits of R13. -/
def hexDigitsUpper : List Char := ['0', '1', '2', '3', '4', '5', '6', '7', '8', '9', 'A', 'B', 'C', 'D', 'E', 'F']

/-- A byte as two digits, `b[7:4]` first (R13). PRESUMED (log 21): the spec takes the nibble order from general
knowledge (G2); safe for the block, which works on bytes. -/
def hexPair (digits : List Char) (b : Byte) : List Char :=
  [digits.getD (b.toNat / 16) '0', digits.getD (b.toNat % 16) '0']

/-- `hex_upper(s)` (R13). -/
def hexUpper (s : List Byte) : List Char := s.flatMap (hexPair hexDigitsUpper)

/-- `hex_lower(s)` (R13), used for status codes shown to the host's caller. -/
def hexLower (s : List Byte) : List Char := s.flatMap (hexPair hexDigitsLower)

end Sys2Proof.Machine
end

