-- ==== Sys2Proof/Machine/Checksum.lean ====
section
/-! DEFINITION. The 16-bit frame checksum: `crc_step` and `crc16` (spec/40_checksum.md R90 to R92), what appends it,
and the table-driven form R92 allows. -/

namespace Sys2Proof.Machine

/-- One of the eight iterations of R90: bit 0 is tested before the shift. -/
def crcShift (a : Word) : Word := if a.getLsbD 0 then (a >>> 1) ^^^ Config.crcPoly else a >>> 1

/-- `n` iterations of `crcShift`. -/
def crcShifts : Nat → Word → Word
  | 0, a => a
  | n + 1, a => crcShifts n (crcShift a)

/-- `crc_step(acc, b)` (R90): the byte into the low byte, then exactly 8 iterations. -/
def crcStep (acc : Word) (b : Byte) : Word := crcShifts 8 (acc ^^^ b.setWidth 16)

/-- The loop of R91 from any accumulator. -/
def crcFrom (acc : Word) (s : List Byte) : Word := s.foldl crcStep acc

/-- `crc16(s)` (R91): no final XOR, reversal or swap. -/
def crc16 (s : List Byte) : Word := crcFrom Config.crcInit s

/-- The checksum of `body` as its two bytes on the wire, low byte first (R42). -/
def crcBytes (body : List Byte) : List Byte := [lo8 (crc16 body), hi8 (crc16 body)]

/-- `body ++ [lo8(c), hi8(c)]` with `c = crc16(body)`: the value R77 calls `TX.CHECKED body`. -/
def appendCrc (body : List Byte) : List Byte := body ++ crcBytes body

/-- Entry `i` of the 256-entry table R92 allows, generated from R90. -/
def crcTableEntry (i : Byte) : Word := crcStep 0#16 i

/-- The table-driven step of R92's permitted formulation. -/
def crcStepByTable (acc : Word) (b : Byte) : Word := crcTableEntry (lo8 acc ^^^ b) ^^^ (acc >>> 8)

/-- The checksum by the table. -/
def crc16ByTable (s : List Byte) : Word := s.foldl crcStepByTable Config.crcInit

end Sys2Proof.Machine
end

