-- ==== Sys2Proof/Machine/Operands.lean ====
section
/-! DEFINITION. Operand assembly (spec/30_encoding.md R68) and the wire layouts (R46 to R48, R61 to R67). -/

namespace Sys2Proof.Machine

/-- `zext_9(b) + 1`: the total size an LS Length byte declares, 1..256, never wrapping (R68, R118). -/
def lsTarget (b : Byte) : BitVec 9 := b.setWidth 9 + 1#9

/-- `target_of(b)` under a dialect (R118). -/
def targetOf (d : Dialect) (b : Byte) : BitVec 9 :=
  match d with
  | .ls => lsTarget b
  | .fx => BitVec.ofNat 9 Config.fxLen

/-- The outbound `Length = 4 + n` as 8 bits, for `n <= 251` (R62, R68). -/
def lengthByte (n : Nat) : Byte := BitVec.ofNat 8 (Config.lsOverhead + n)

/-- `[length, adr, cmd] ++ p`: an LS frame before its checksum (R61, R106). -/
def lsBody (adr cmd : Byte) (p : List Byte) : List Byte := lengthByte p.length :: adr :: cmd :: p

/-- The LS frame TX.BUILD gives: the body and its checksum (R61, R106). -/
def lsFrame (adr cmd : Byte) (p : List Byte) : List Byte := appendCrc (lsBody adr cmd p)

/-- An LS frame on the wire with the two checksum bytes it carries, right or not (R61, R46). -/
def lsFrameWith (adr cmd : Byte) (p : List Byte) (crcLo crcHi : Byte) : List Byte := lsBody adr cmd p ++ [crcLo, crcHi]

/-- The seven bytes of the fixed-dialect scan command; 0x09 is frameLength (R48, R107). -/
def fxCommandBody (m : Byte) : List Byte := [0xDD#8, 0x11#8, 0xEF#8, 0x09#8, m, 0x01#8, 0x01#8]

/-- The 9-byte scan command (R48, R64, R107). -/
def fxCommand (m : Byte) : List Byte := appendCrc (fxCommandBody m)

/-- `header[5:0]` as a field (R66). -/
def headerCount (h : Byte) : BitVec 6 := h.setWidth 6

/-- `N = header[5:0]`, the TID byte count of a record (R66, R68, R151). -/
def tidCount (h : Byte) : Nat := (headerCount h).toNat

/-- A record header byte `f p n n n n n n` (R66), `fastid*128 + hasphasefreq*64 + n` (R153). -/
def tlvHeaderByte (fastid hasphasefreq : Bool) (n : BitVec 6) : Byte :=
  (if fastid then 0x80#8 else 0x00#8) + (if hasphasefreq then 0x40#8 else 0x00#8) + n.setWidth 8

/-- A tag record on the wire: header, TID bytes, rssi (R67). -/
def tlvRecordBytes (fastid hasphasefreq : Bool) (tid : List Byte) (rssi : Byte) : List Byte :=
  tlvHeaderByte fastid hasphasefreq (BitVec.ofNat 6 tid.length) :: (tid ++ [rssi])

/-- A 19-byte fixed-dialect frame on the wire: b0..b3, antenna, b5, rssi, tid, CRC_lo, CRC_hi (R47, R65). -/
def fxInBytes (b0 b1 b2 b3 antenna b5 rssi : Byte) (tid : List Byte) (crcLo crcHi : Byte) : List Byte :=
  [b0, b1, b2, b3, antenna, b5, rssi] ++ tid ++ [crcLo, crcHi]

end Sys2Proof.Machine
end

