-- ==== Sys2Proof/Machine/Flags.lean ====
section
/-! DEFINITION. The flag values of spec/10_state.md R29. None is stored: each is computed afresh into an outcome. -/

namespace Sys2Proof.Machine

/-- `crc_ok(f)` (spec/43_frame_parse.md R135): false for fewer than 2 bytes. -/
def crcOk (f : List Byte) : Bool :=
  if 2 ≤ f.length then
    crc16 (slice f 0 (f.length - 2)) == le16 (byteAt f (f.length - 2)) (byteAt f (f.length - 1))
  else false

/-- `fastid = h[7]` (R66, R151). -/
def fastidFlag (h : Byte) : Bool := h.getLsbD 7

/-- `hasphasefreq = h[6]` (R66, R151). -/
def hasphasefreqFlag (h : Byte) : Bool := h.getLsbD 6

end Sys2Proof.Machine
end

