-- ==== Sys2Proof/Machine/Outcome.lean ====
section
/-! DEFINITION. What an operation returns: outcome items, values and errors (spec/00_scope.md R12, spec/60_exceptions.md R200). -/

namespace Sys2Proof.Machine

/-- `RX_STATE` (spec/10_state.md R23): `Complete` and `Errored` are never stored. -/
inductive RxState where
  /-- Encoded 0. -/
  | idle
  /-- Encoded 1. -/
  | accumulating
  deriving DecidableEq, Repr

/-- The name of a status byte (R63, R138). -/
inductive StatusName where
  | success
  | finish
  | overTime
  | extend
  | overNumber
  | aerialFault
  | paramError
  /-- Carries the raw byte. -/
  | unrecognized (b : Byte)
  deriving DecidableEq, Repr, Inhabited

/-- What a status means for the exchange (R139). -/
inductive StatusClass where
  | terminalOk
  | continuation
  | terminalSilent
  | protocolStatusError
  | unrecognizedStatus
  deriving DecidableEq, Repr

/-- The fields FP.PARSE returns (R136). -/
structure FrameFields where
  length : Byte
  address : Byte
  status : Byte
  payload : List Byte
  crc : Word
  crcOk : Bool
  deriving DecidableEq, Repr

/-- A decoded tag record (R150). -/
structure TagRecord where
  tid : List Byte
  rssi : Byte
  /-- Absent in TLV mode, present in fixed-offset mode (D27). -/
  antenna : Option Byte
  fastid : Bool
  hasphasefreq : Bool
  deriving DecidableEq, Repr

/-- The three fields of a record header byte (R66, R151). -/
structure TlvHeader where
  fastid : Bool
  hasphasefreq : Bool
  n : BitVec 6
  deriving DecidableEq, Repr

/-- The result of a `Value(...)` outcome, structured (R12, R69, R72; log 22). -/
inductive Value where
  /-- `Value(u16)`: CRC.RD, CRC.BLK. -/
  | u16 (v : Word)
  /-- `Value(u8)`: CFG.RD. -/
  | u8 (v : Byte)
  /-- `Value(frame)`: TX.BUILD, TX.BUILDFX. -/
  | frameBytes (f : List Byte)
  /-- `Value(state, len, target)`: RX.STAT. -/
  | rxStat (st : RxState) (len target : BitVec 9)
  /-- `Value(fields)`: FP.PARSE. -/
  | fields (f : FrameFields)
  /-- `Value(crc_ok)`: FP.CHECK. -/
  | crcOk (ok : Bool)
  /-- `Value(name, class)`: FP.STATUS. -/
  | status (name : StatusName) (cls : StatusClass)
  /-- `Value(records)`: TD.TLV. -/
  | records (rs : List TagRecord)
  /-- `Value(record)`: TD.FIX. -/
  | record (r : TagRecord)
  /-- The fields of a header byte (R66). -/
  | tlvHeader (h : TlvHeader)
  deriving DecidableEq, Repr

/-- The error kinds with what each carries (R200). -/
inductive Err where
  /-- `k`: partial-frame bytes discarded (R201). -/
  | transportClosed (k : BitVec 9)
  /-- Offset of the bad header, its TID count, the records before it (R202). -/
  | malformedPayload (cur n count : Nat)
  /-- The complete frame whose `crc_ok` is 0 (R203). -/
  | checksumMismatch (f : List Byte)
  /-- The operand's length (R204). -/
  | malformedFrame (len : Nat)
  /-- The payload's length (R205). -/
  | payloadTooLong (n : Nat)
  /-- `RX_LEN` at the time (R206). -/
  | busy (len : BitVec 9)
  /-- The op byte (R207). -/
  | illegalOp (op : Byte)
  deriving DecidableEq, Repr

/-- The numeric codes of R200's table. -/
def errCode : Err → Nat
  | .transportClosed _ => 1
  | .malformedPayload _ _ _ => 2
  | .checksumMismatch _ => 3
  | .malformedFrame _ => 4
  | .payloadTooLong _ => 5
  | .busy _ => 6
  | .illegalOp _ => 7

/-- One item of an outcome list (R12). -/
inductive Item where
  /-- A result. -/
  | value (v : Value)
  /-- The reassembler emitted a complete frame. -/
  | frame (f : List Byte) (crcOk : Bool)
  /-- An error. -/
  | err (e : Err)
  deriving DecidableEq, Repr

end Sys2Proof.Machine
end

