-- ==== Sys2Proof/Syntax.lean ====
section
/-! DEFINITION. The instruction type: one constructor for each row of spec/opcode_table.json, and a transfer, the
form in which an instruction reaches the block. -/

namespace Sys2Proof

/-- The operations of R72, the unassigned op number of R73, and the table's wire rows (R60 to R67). -/
inductive Instr where
  /-- `CRC.INIT` (R93). -/
  | crcInit
  /-- `CRC.UPD b` (R94). -/
  | crcUpd (b : Byte)
  /-- `CRC.RD` (R95). -/
  | crcRd
  /-- `CRC.BLK s` (R96). -/
  | crcBlk (s : List Byte)
  /-- `TX.BUILD adr, cmd, p` (R106). -/
  | txBuild (adr cmd : Byte) (p : List Byte)
  /-- `TX.BUILDFX m` (R107). -/
  | txBuildFx (m : Byte)
  /-- `RX.BYTE b` (R117). -/
  | rxByte (b : Byte)
  /-- `RX.CHUNK s` (R120). -/
  | rxChunk (s : List Byte)
  /-- `RX.EOS` (R121). -/
  | rxEos
  /-- `RX.FLUSH` (R122). -/
  | rxFlush
  /-- `RX.STAT` (R123). -/
  | rxStat
  /-- `FP.PARSE f` (R136). -/
  | fpParse (f : List Byte)
  /-- `FP.CHECK f` (R137). -/
  | fpCheck (f : List Byte)
  /-- `FP.STATUS b` (R138). -/
  | fpStatus (b : Byte)
  /-- `TD.TLV s` (R152). -/
  | tdTlv (s : List Byte)
  /-- `TD.FIX f` (R154). -/
  | tdFix (f : List Byte)
  /-- `CFG.WR v` (R166). -/
  | cfgWr (v : Byte)
  /-- `CFG.RD` (R165). -/
  | cfgRd
  /-- `SYS.RESET` (R167). -/
  | sysReset
  /-- `(reserved)`: an op number with no operation (R73, R168). -/
  | reserved (op : Byte)
  /-- `WIRE-LS` (R61): a length-status frame arriving on the `rx` port, with the checksum bytes it carries. -/
  | wireLs (address commandOrStatus : Byte) (payload : List Byte) (crcLo crcHi : Byte)
  /-- `WIRE-FXCMD` (R64): the fixed-dialect scan command the block puts out. -/
  | wireFxCmd (antennaMask : Byte)
  /-- `WIRE-FXIN` (R65): a 19-byte fixed-dialect frame arriving on the `rx` port. -/
  | wireFxIn (b0 b1 b2 b3 antenna b5 rssi : Byte) (tid : List Byte) (crcLo crcHi : Byte)
  /-- `WIRE-TLVHDR` (R66): a tag-record header byte. -/
  | wireTlvHdr (fastid hasphasefreq : Bool) (n : BitVec 6)
  /-- `WIRE-TLVREC` (R67): one tag record. -/
  | wireTlvRec (fastid hasphasefreq : Bool) (tid : List Byte) (rssi : Byte)
  /-- `STATUS.success`, byte 0x00 (R63). -/
  | statusSuccess
  /-- `STATUS.finish`, byte 0x01 (R63). -/
  | statusFinish
  /-- `STATUS.overTime`, byte 0x02 (R63). -/
  | statusOverTime
  /-- `STATUS.extend`, byte 0x03 (R63). -/
  | statusExtend
  /-- `STATUS.overNumber`, byte 0x04 (R63). -/
  | statusOverNumber
  /-- `STATUS.aerialFault`, byte 0xF8 (R63). -/
  | statusAerialFault
  /-- `STATUS.paramError`, byte 0xFF (R63). -/
  | statusParamError
  /-- `STATUS.unrecognized`, any other byte (R63). -/
  | statusUnrecognized (b : Byte)
  deriving DecidableEq, Repr

/-- What a transfer's bytes are (DESIGN CHOICE, log 11): an operation string of the `cmd` or `rx` port (R69), or a
unit of one of the wire formats of R60. The bytes alone do not tell: 0x01 is CRC.INIT and also status `finish`. -/
inductive Channel where
  /-- An operation string (R69, R72). -/
  | op
  /-- `WIRE-LS` frames. -/
  | ls
  /-- `WIRE-FXCMD` commands. -/
  | fxCmd
  /-- `WIRE-FXIN` frames. -/
  | fxIn
  /-- `WIRE-TLVHDR` bytes. -/
  | tlvHdr
  /-- `WIRE-TLVREC` records. -/
  | tlvRec
  /-- `WIRE-STATUS` bytes. -/
  | status
  deriving DecidableEq, Repr

/-- One transfer toward the block (R31). -/
structure Transfer where
  /-- What the bytes are. -/
  chan : Channel
  /-- The bytes, first byte first. -/
  bytes : List Byte
  deriving DecidableEq, Repr

end Sys2Proof
end

