-- ==== Sys2Proof/Machine/State.lean ====
section
/-! DEFINITION. The state of one block instance (spec/10_state.md R20), its reset value (R30), and why a step can stop. -/

namespace Sys2Proof.Machine

/-- The faults of the model. The spec's errors are outcomes, not faults (R212); neither of these happens in a state
that meets `Sys2Proof.Safety.Inv`. -/
inductive Fault where
  /-- Raised by a received byte when `RX_LEN` is outside `RX_BUF`: R11 defines MemWrite for `addr < BUF_CAP` only
  (log 10). Safe: the model stops where the spec defines nothing. -/
  | rxBufAddress (addr : Nat)
  /-- Raised at frame completion when a byte below `RX_LEN` was never written: the spec leaves `RX_BUF` unspecified
  after reset (R30), and such a byte has no value here (log 7). Safe: the model stops. -/
  | rxBufUnwritten (addr len : Nat)
  deriving DecidableEq, Repr

/-- Why a step gives an instruction no meaning. -/
inductive Refusal where
  /-- Raised by `exec` for an instruction without a meaning; no arm is left that does. Safe. -/
  | notModelled (mnemonic : String)
  deriving DecidableEq, Repr

/-- The machine's state: plain data. -/
structure State where
  /-- The model's own field (log 9): the configuration record of R7, which no operation changes. -/
  params : Params
  /-- `CFG.DIALECT` (R20, R21). -/
  dialect : Dialect
  /-- `CFG.CRC_CHECK_EN` (R20, R21). -/
  crcCheckEn : Bool
  /-- `CRC_ACC` (R20, R22). -/
  crcAcc : Word
  /-- `RX_STATE` (R20, R23). -/
  rxState : RxState
  /-- `RX_LEN` (R20, R24, R28). -/
  rxLen : BitVec 9
  /-- `RX_TARGET` (R20, R24). -/
  rxTarget : BitVec 9
  /-- `RX_BUF` (R20, R25, R40): the bytes written so far, in the canonical form `Memory.wf`. -/
  rxBuf : List Host.Cell
  /-- The model's own field (log 1): the operations issued and not yet performed, in the total order of R49. -/
  input : List Transfer
  /-- The model's own field (log 6): the outcome list the latest operation returned (R12). -/
  outcome : List Item
  deriving DecidableEq, Repr

/-- The state right after reset for an instance with these parameters (R30). -/
def State.resetWith (p : Params) : State :=
  { params := p
    dialect := p.dialectReset
    crcCheckEn := false
    crcAcc := Config.crcInit
    rxState := .idle
    rxLen := 0#9
    rxTarget := 0#9
    rxBuf := []
    input := []
    outcome := [] }

/-- The machine right after reset (R30, R231), with the parameters at the spec's defaults (log 9). -/
def State.reset : State := State.resetWith Params.default

end Sys2Proof.Machine
end

