-- ==== Sys2Proof/Machine/Memory.lean ====
section
/-! DEFINITION. `RX_BUF` as a canonical list of cells (spec/20_memory.md R40, R45; spec/00_scope.md R11). An address
that is not listed holds no value (log 7); so no entry can equal what an unlisted address reads as. -/

namespace Sys2Proof.Machine

/-- Addresses strictly rising from `lo` on and inside `RX_BUF`. -/
def risingFrom : Nat → List Host.Cell → Bool
  | _, [] => true
  | lo, (a, _) :: rest => decide (lo ≤ a) && decide (a < Config.bufCap) && risingFrom (a + 1) rest

/-- The canonical form: addresses strictly rising, all below `BUF_CAP`. -/
def Memory.wf (m : List Host.Cell) : Bool := risingFrom 0 m

/-- One byte of `RX_BUF`; none where nothing has been written (log 7). -/
def readByte : List Host.Cell → Nat → Option Byte
  | [], _ => none
  | (k, v) :: rest, a => if k = a then some v else readByte rest a

/-- Store one byte, keeping the list canonical. -/
def writeByte : List Host.Cell → Nat → Byte → List Host.Cell
  | [], a, b => [(a, b)]
  | (k, v) :: rest, a, b =>
    if a < k then (a, b) :: (k, v) :: rest
    else if a = k then (a, b) :: rest
    else (k, v) :: writeByte rest a b

/-- `n` bytes from address `a` on; none if one of them was never written. -/
def readRange (m : List Host.Cell) : Nat → Nat → Option (List Byte)
  | _, 0 => some []
  | a, n + 1 =>
    match readByte m a, readRange m (a + 1) n with
    | some b, some bs => some (b :: bs)
    | _, _ => none

end Sys2Proof.Machine
end

