-- ==== Sys2Proof/Machine/Ops.lean ====
section
/-! DEFINITION. The named operations over memory and registers (spec/00_scope.md R11, R12), the error outcome as one
shared operation (spec/60_exceptions.md R212), and the reassembler's step (spec/42_reassembler.md R117 to R121). -/

namespace Sys2Proof.Machine

/-- The result type of a step. -/
abbrev Result := Host.Outcome State Fault Refusal

/-- The outcome list of the operation (R12): it replaces the one before, of which the block keeps no copy (R239). -/
def respond (items : List Item) (s : State) : State := { s with outcome := items }

/-- An operation that returns an empty outcome list. -/
def done (s : State) : Result := .next (respond [] s)

/-- An operation that returns `Value(v)`. -/
def answer (v : Value) (s : State) : Result := .next (respond [.value v] s)

/-- `raise <Error>(info)` (R11, R212): the operation ends with the error as its outcome. Nothing is saved anywhere, no
mode changes and control goes nowhere. There is no operation that returns from it (R213): the block takes the next
operation at once. -/
def raise (e : Err) (s : State) : Result := .next (respond [.err e] s)

/-- `MemWrite(addr, 1, v)` (R11), defined for `addr < BUF_CAP`. -/
def memWrite (a : Nat) (v : Byte) (s : State) : Except Fault State :=
  if a < Config.bufCap then .ok { s with rxBuf := writeByte s.rxBuf a v } else .error (.rxBufAddress a)

/-- `MemRead(addr, n)` (R11). -/
def memRead (a n : Nat) (s : State) : Except Fault (List Byte) :=
  match readRange s.rxBuf a n with
  | some bs => .ok bs
  | none => .error (.rxBufUnwritten a n)

/-- The return to `Idle` (R24, R119, R121, R122): both counters become 0, `RX_BUF` keeps stale bytes (R25). -/
def goIdle (s : State) : State := { s with rxState := .idle, rxLen := 0#9, rxTarget := 0#9 }

/-- The first byte of a frame sets the target (R117, R118); a later byte sets nothing. -/
def beginFrame (b : Byte) (s : State) : State :=
  match s.rxState with
  | .idle => { s with rxTarget := targetOf s.dialect b, rxState := .accumulating }
  | .accumulating => s

/-- The item a complete frame yields (R119): `Frame(f, ok)`, or the mismatch when validation is on. -/
def frameItem (checkEn : Bool) (f : List Byte) : Item :=
  if checkEn && !crcOk f then .err (.checksumMismatch f) else .frame f (crcOk f)

/-- `terminate_frame(f)` (R119): the unit is `Idle` and empty afterwards, whatever the item. -/
def terminateFrame (f : List Byte) (s : State) : State × List Item := (goIdle s, [frameItem s.crcCheckEn f])

/-- The completion test, made after every stored byte (R117). -/
def completeFrame (s : State) : Except Fault (State × List Item) :=
  if s.rxLen = s.rxTarget then (memRead 0 s.rxLen.toNat s).map (fun f => terminateFrame f s) else .ok (s, [])

/-- One received byte (R117): the state it leaves and the items it yields. -/
def receiveByte (b : Byte) (s : State) : Except Fault (State × List Item) :=
  match memWrite (beginFrame b s).rxLen.toNat b (beginFrame b s) with
  | .error e => .error e
  | .ok s' => completeFrame { s' with rxLen := s'.rxLen + 1#9 }

/-- Received bytes in order, their outcome lists concatenated (R120). -/
def receiveAll : List Byte → State → Except Fault (State × List Item)
  | [], s => .ok (s, [])
  | b :: bs, s =>
    match receiveByte b s with
    | .error e => .error e
    | .ok (s', items) => (receiveAll bs s').map (fun r => (r.1, items ++ r.2))

/-- An `rx` operation ends: its items are its outcome list. -/
def deliver : Except Fault (State × List Item) → Result
  | .error e => .fault e
  | .ok (s, items) => .next (respond items s)

end Sys2Proof.Machine
end

