-- ==== Sys2Proof/Machine/Crc.lean ====
section
/-! DEFINITION. The CRC unit's operations (spec/40_checksum.md R93 to R96). -/

namespace Sys2Proof.Machine

/-- `CRC.INIT` (R93). -/
def execCrcInit (s : State) : Result := done { s with crcAcc := Config.crcInit }

/-- `CRC.UPD b` (R94). -/
def execCrcUpd (b : Byte) (s : State) : Result := done { s with crcAcc := crcStep s.crcAcc b }

/-- `CRC.RD` (R95): reading does not re-initialise. -/
def execCrcRd (s : State) : Result := answer (.u16 s.crcAcc) s

/-- `CRC.BLK bs` (R96): pure, `CRC_ACC` neither read nor written. -/
def execCrcBlk (bs : List Byte) (s : State) : Result := answer (.u16 (crc16 bs)) s

end Sys2Proof.Machine
end

