-- ==== Sys2Proof/Machine/Rx.lean ====
section
/-! DEFINITION. The RX unit's operations (spec/42_reassembler.md R117 to R123). -/

namespace Sys2Proof.Machine

/-- `RX.BYTE b` (R117). -/
def execRxByte (b : Byte) (s : State) : Result := deliver (receiveByte b s)

/-- `RX.CHUNK bs` (R120): exactly RX.BYTE for each byte. -/
def execRxChunk (bs : List Byte) (s : State) : Result := deliver (receiveAll bs s)

/-- `RX.EOS` (R121): always reports, with the number of bytes discarded. -/
def execRxEos (s : State) : Result := raise (.transportClosed s.rxLen) (goIdle s)

/-- `RX.FLUSH` (R122). -/
def execRxFlush (s : State) : Result := done (goIdle s)

/-- `RX.STAT` (R123). -/
def execRxStat (s : State) : Result := answer (.rxStat s.rxState s.rxLen s.rxTarget) s

end Sys2Proof.Machine
end

