-- ==== Sys2Proof/Machine/Sys.lean ====
section
/-! DEFINITION. Configuration, reset and illegal operations (spec/45_system_ops.md R165 to R168). -/

namespace Sys2Proof.Machine

/-- `CFG.DIALECT` as its bit (R21). -/
def dialectBit : Dialect → Bool
  | .ls => false
  | .fx => true

/-- The dialect a bit selects (R21). -/
def dialectOfBit (b : Bool) : Dialect := if b then .fx else .ls

/-- `CFG` as CFG.RD returns it (R21, R165): bits 7:2 read as 0. -/
def cfgByte (s : State) : Byte :=
  (BitVec.ofBool (dialectBit s.dialect)).setWidth 8 + 2#8 * (BitVec.ofBool s.crcCheckEn).setWidth 8

/-- `CFG.RD` (R165). -/
def execCfgRd (s : State) : Result := answer (.u8 (cfgByte s)) s

/-- `CFG.WR v` (R166): refused while a frame is being assembled; bits 7:2 ignored. -/
def execCfgWr (v : Byte) (s : State) : Result :=
  match s.rxState with
  | .accumulating => raise (.busy s.rxLen) s
  | .idle => done { s with dialect := dialectOfBit (v.getLsbD 0), crcCheckEn := v.getLsbD 1 }

/-- `SYS.RESET` (R167): every register at its value of R30. `RX_BUF` becomes meaningless, so nothing stays listed
(log 8); the operations still to come and the parameters are not the block's state. -/
def execSysReset (s : State) : Result := done { State.resetWith s.params with input := s.input }

/-- An unassigned op number (R73, R168, R207): refused, nothing changed. -/
def execReserved (op : Byte) (s : State) : Result := raise (.illegalOp op) s

end Sys2Proof.Machine
end

