-- ==== Sys2Proof/Machine/Tx.lean ====
section
/-! DEFINITION. The TX unit's operations (spec/41_frame_build.md R105 to R107): no state read, none written. -/

namespace Sys2Proof.Machine

/-- `TX.BUILD adr, cmd, p` (R106): refused above 251 payload bytes. -/
def execTxBuild (adr cmd : Byte) (p : List Byte) (s : State) : Result :=
  if Config.lsMaxPayload < p.length then raise (.payloadTooLong p.length) s
  else answer (.frameBytes (lsFrame adr cmd p)) s

/-- `TX.BUILDFX m` (R107). -/
def execTxBuildFx (m : Byte) (s : State) : Result := answer (.frameBytes (fxCommand m)) s

end Sys2Proof.Machine
end

