-- ==== Sys2Proof/Machine/Fp.lean ====
section
/-! DEFINITION. The FP unit's operations (spec/43_frame_parse.md R136 to R139). -/

namespace Sys2Proof.Machine

/-- The two tests of R136, the length first (R211). -/
def parseable (f : List Byte) : Bool :=
  decide (Config.lsMinFrame ≤ f.length) && decide ((byteAt f 0).toNat = f.length - 1)

/-- The fields of a frame that passes them (R136). -/
def frameFields (f : List Byte) : FrameFields :=
  { length := byteAt f 0
    address := byteAt f 1
    status := byteAt f 2
    payload := slice f 3 (f.length - 2)
    crc := le16 (byteAt f (f.length - 2)) (byteAt f (f.length - 1))
    crcOk := crcOk f }

/-- FP.PARSE as a function of its operand (R27, R136). -/
def parseFrame (f : List Byte) : Except Err FrameFields :=
  if parseable f then .ok (frameFields f) else .error (.malformedFrame f.length)

/-- The name of a status byte (R63, R138). -/
def statusName (b : Byte) : StatusName :=
  match b with
  | 0x00#8 => .success
  | 0x01#8 => .finish
  | 0x02#8 => .overTime
  | 0x03#8 => .extend
  | 0x04#8 => .overNumber
  | 0xF8#8 => .aerialFault
  | 0xFF#8 => .paramError
  | _ => .unrecognized b

/-- `status_class(name)` (R139). -/
def statusClass : StatusName → StatusClass
  | .success => .terminalOk
  | .finish => .terminalOk
  | .extend => .continuation
  | .overTime => .terminalSilent
  | .overNumber => .protocolStatusError
  | .aerialFault => .protocolStatusError
  | .paramError => .protocolStatusError
  | .unrecognized _ => .unrecognizedStatus

/-- The answer to a status byte (R138). -/
def answerStatus (b : Byte) (s : State) : Result := answer (.status (statusName b) (statusClass (statusName b))) s

/-- `FP.PARSE f` (R136): a wrong checksum is not an error. -/
def execFpParse (f : List Byte) (s : State) : Result :=
  match parseFrame f with
  | .ok fields => answer (.fields fields) s
  | .error e => raise e s

/-- `FP.CHECK f` (R137). -/
def execFpCheck (f : List Byte) (s : State) : Result := answer (.crcOk (crcOk f)) s

/-- `FP.STATUS b` (R138): total on all 256 values. -/
def execFpStatus (b : Byte) (s : State) : Result := answerStatus b s

end Sys2Proof.Machine
end

