-- ==== Sys2Proof/Machine/Td.lean ====
section
/-! DEFINITION. The TD unit's operations (spec/44_tag_decode.md R150 to R154). -/

namespace Sys2Proof.Machine

/-- The record whose header stands at `cur`, all of it inside the slice (R152). -/
def tlvRecordAt (s : List Byte) (cur : Nat) : TagRecord :=
  { tid := slice s (cur + 1) (cur + 1 + tidCount (byteAt s cur))
    rssi := byteAt s (cur + 1 + tidCount (byteAt s cur))
    antenna := none
    fastid := fastidFlag (byteAt s cur)
    hasphasefreq := hasphasefreqFlag (byteAt s cur) }

/-- The loop of R152 from a cursor and the records before it. The first argument bounds the passes; a pass that does
not raise moves the cursor by at least 2 (R153), so `len(s)` passes are more than enough. -/
def tlvLoop : Nat → List Byte → Nat → List TagRecord → Except Err (List TagRecord)
  | 0, _, _, recs => .ok recs
  | fuel + 1, s, cur, recs =>
    if cur < s.length then
      if s.length < cur + 2 + tidCount (byteAt s cur) then
        .error (.malformedPayload cur (tidCount (byteAt s cur)) recs.length)
      else tlvLoop fuel s (cur + 2 + tidCount (byteAt s cur)) (recs ++ [tlvRecordAt s cur])
    else .ok recs

/-- TD.TLV as a function of its operand (R27, R152). -/
def decodeTlv (s : List Byte) : Except Err (List TagRecord) := tlvLoop s.length s 0 []

/-- TD.FIX as a function of its operand and the TID range (R154). -/
def decodeFix (p : Params) (f : List Byte) : Except Err TagRecord :=
  if f.length = Config.fxLen then
    .ok
      { tid := slice f p.fxTidLo (p.fxTidHi + 1)
        rssi := byteAt f Config.fxRssiOff
        antenna := some (byteAt f Config.fxAntOff)
        fastid := false
        hasphasefreq := false }
  else .error (.malformedFrame f.length)

/-- The answer to a payload slice (R152): no records with an error. -/
def answerTlv (bs : List Byte) (s : State) : Result :=
  match decodeTlv bs with
  | .ok rs => answer (.records rs) s
  | .error e => raise e s

/-- The text of a tid (R150, R13). -/
def tidText (r : TagRecord) : List Char := hexUpper r.tid

/-- `TD.TLV bs` (R152). -/
def execTdTlv (bs : List Byte) (s : State) : Result := answerTlv bs s

/-- `TD.FIX f` (R154): the checksum is not checked here. -/
def execTdFix (f : List Byte) (s : State) : Result :=
  match decodeFix s.params f with
  | .ok r => answer (.record r) s
  | .error e => raise e s

end Sys2Proof.Machine
end

