-- ==== Sys2Proof/Machine/Wire.lean ====
section
/-! DEFINITION. The table's wire rows (spec/30_encoding.md R60 to R67): what the block does with one unit of a format
at the port where it appears (DESIGN CHOICE, logs 11 and 12). -/

namespace Sys2Proof.Machine

/-- `WIRE-LS` (R61): the frame arrives on `rx` and is received byte by byte (R31, R117, R120), whatever its checksum
bytes are worth (log 13). -/
def execWireLs (address commandOrStatus : Byte) (payload : List Byte) (crcLo crcHi : Byte) (s : State) : Result :=
  deliver (receiveAll (lsFrameWith address commandOrStatus payload crcLo crcHi) s)

/-- `WIRE-FXCMD` (R64): the block only puts this command out, so its one effect is the bytes (R107). -/
def execWireFxCmd (antennaMask : Byte) (s : State) : Result := answer (.frameBytes (fxCommand antennaMask)) s

/-- `WIRE-FXIN` (R65): the frame arrives on `rx` and is received byte by byte; no byte of it is looked at in dialect
`FX`. -/
def execWireFxIn (b0 b1 b2 b3 antenna b5 rssi : Byte) (tid : List Byte) (crcLo crcHi : Byte) (s : State) : Result :=
  deliver (receiveAll (fxInBytes b0 b1 b2 b3 antenna b5 rssi tid crcLo crcHi) s)

/-- The fields of a header byte (R66, R151). -/
def headerFields (h : Byte) : TlvHeader :=
  { fastid := fastidFlag h, hasphasefreq := hasphasefreqFlag h, n := headerCount h }

/-- `WIRE-TLVHDR` (R66): the header's fields. -/
def execWireTlvHdr (fastid hasphasefreq : Bool) (n : BitVec 6) (s : State) : Result :=
  answer (.tlvHeader (headerFields (tlvHeaderByte fastid hasphasefreq n))) s

/-- `WIRE-TLVREC` (R67): the slice of this one record, decoded as R152 decodes any slice. -/
def execWireTlvRec (fastid hasphasefreq : Bool) (tid : List Byte) (rssi : Byte) (s : State) : Result :=
  answerTlv (tlvRecordBytes fastid hasphasefreq tid rssi) s

/-- `STATUS.success` (R63, R138). -/
def execStatusSuccess (s : State) : Result := answerStatus 0x00#8 s

/-- `STATUS.finish` (R63, R138). -/
def execStatusFinish (s : State) : Result := answerStatus 0x01#8 s

/-- `STATUS.overTime` (R63, R138). -/
def execStatusOverTime (s : State) : Result := answerStatus 0x02#8 s

/-- `STATUS.extend` (R63, R138). -/
def execStatusExtend (s : State) : Result := answerStatus 0x03#8 s

/-- `STATUS.overNumber` (R63, R138). -/
def execStatusOverNumber (s : State) : Result := answerStatus 0x04#8 s

/-- `STATUS.aerialFault` (R63, R138). -/
def execStatusAerialFault (s : State) : Result := answerStatus 0xF8#8 s

/-- `STATUS.paramError` (R63, R138). -/
def execStatusParamError (s : State) : Result := answerStatus 0xFF#8 s

/-- `STATUS.unrecognized` (R63, R74, R138): the raw byte is kept. -/
def execStatusUnrecognized (b : Byte) (s : State) : Result := answerStatus b s

end Sys2Proof.Machine
end

