-- ==== Sys2Proof/Machine/Dispatch.lean ====
section
/-! DEFINITION. The dispatch: one arm for each constructor of Instr. -/

namespace Sys2Proof.Machine

def exec (i : Instr) (s : State) : Host.Outcome State Fault Refusal :=
  match i with
  | .crcInit => Sys2Proof.Machine.execCrcInit s
  | .crcUpd b => Sys2Proof.Machine.execCrcUpd b s
  | .crcRd => Sys2Proof.Machine.execCrcRd s
  | .crcBlk bs => Sys2Proof.Machine.execCrcBlk bs s
  | .txBuild adr cmd p => Sys2Proof.Machine.execTxBuild adr cmd p s
  | .txBuildFx m => Sys2Proof.Machine.execTxBuildFx m s
  | .rxByte b => Sys2Proof.Machine.execRxByte b s
  | .rxChunk bs => Sys2Proof.Machine.execRxChunk bs s
  | .rxEos => Sys2Proof.Machine.execRxEos s
  | .rxFlush => Sys2Proof.Machine.execRxFlush s
  | .rxStat => Sys2Proof.Machine.execRxStat s
  | .fpParse f => Sys2Proof.Machine.execFpParse f s
  | .fpCheck f => Sys2Proof.Machine.execFpCheck f s
  | .fpStatus b => Sys2Proof.Machine.execFpStatus b s
  | .tdTlv bs => Sys2Proof.Machine.execTdTlv bs s
  | .tdFix f => Sys2Proof.Machine.execTdFix f s
  | .cfgWr v => Sys2Proof.Machine.execCfgWr v s
  | .cfgRd => Sys2Proof.Machine.execCfgRd s
  | .sysReset => Sys2Proof.Machine.execSysReset s
  | .reserved op => Sys2Proof.Machine.execReserved op s
  | .wireLs adr cs p lo hi => Sys2Proof.Machine.execWireLs adr cs p lo hi s
  | .wireFxCmd m => Sys2Proof.Machine.execWireFxCmd m s
  | .wireFxIn b0 b1 b2 b3 ant b5 rssi tid lo hi => Sys2Proof.Machine.execWireFxIn b0 b1 b2 b3 ant b5 rssi tid lo hi s
  | .wireTlvHdr f p n => Sys2Proof.Machine.execWireTlvHdr f p n s
  | .wireTlvRec f p tid rssi => Sys2Proof.Machine.execWireTlvRec f p tid rssi s
  | .statusSuccess => Sys2Proof.Machine.execStatusSuccess s
  | .statusFinish => Sys2Proof.Machine.execStatusFinish s
  | .statusOverTime => Sys2Proof.Machine.execStatusOverTime s
  | .statusExtend => Sys2Proof.Machine.execStatusExtend s
  | .statusOverNumber => Sys2Proof.Machine.execStatusOverNumber s
  | .statusAerialFault => Sys2Proof.Machine.execStatusAerialFault s
  | .statusParamError => Sys2Proof.Machine.execStatusParamError s
  | .statusUnrecognized b => Sys2Proof.Machine.execStatusUnrecognized b s

end Sys2Proof.Machine
end

