-- ==== Sys2Proof/WellFormed.lean ====
section
/-! DEFINITION. Which instructions have an encoding: the operand sizes spec/30_encoding.md allows. -/

namespace Sys2Proof

/-- The 19 assigned op numbers (R72). -/
def assignedOps : List Byte :=
  [0x01#8, 0x02#8, 0x03#8, 0x04#8, 0x10#8, 0x11#8, 0x20#8, 0x21#8, 0x22#8, 0x23#8,
   0x24#8, 0x30#8, 0x31#8, 0x32#8, 0x40#8, 0x41#8, 0x50#8, 0x51#8, 0x5F#8]

/-- The seven known status values (R63). -/
def knownStatuses : List Byte := [0x00#8, 0x01#8, 0x02#8, 0x03#8, 0x04#8, 0xF8#8, 0xFF#8]

/-- A format `V` operand: 0..65535 bytes (R70). -/
def seqFits (s : List Byte) : Bool := decide (s.length ≤ 65535)

/-- The well-formed instructions: those with an encoding (R69 to R73, R61 to R67). -/
def wellFormed : Instr → Bool
  | .crcInit => true
  | .crcUpd _ => true
  | .crcRd => true
  | .crcBlk s => seqFits s
  | .txBuild _ _ p => decide (p.length ≤ 255)
  | .txBuildFx _ => true
  | .rxByte _ => true
  | .rxChunk s => seqFits s
  | .rxEos => true
  | .rxFlush => true
  | .rxStat => true
  | .fpParse f => seqFits f
  | .fpCheck f => seqFits f
  | .fpStatus _ => true
  | .tdTlv s => seqFits s
  | .tdFix f => seqFits f
  | .cfgWr _ => true
  | .cfgRd => true
  | .sysReset => true
  | .reserved op => !assignedOps.contains op
  | .wireLs _ _ p _ _ => decide (p.length ≤ Config.lsMaxPayload)
  | .wireFxCmd _ => true
  | .wireFxIn _ _ _ _ _ _ _ tid _ _ => decide (tid.length = 10)
  | .wireTlvHdr _ _ _ => true
  | .wireTlvRec _ _ tid _ => decide (tid.length ≤ 63)
  | .statusSuccess => true
  | .statusFinish => true
  | .statusOverTime => true
  | .statusExtend => true
  | .statusOverNumber => true
  | .statusAerialFault => true
  | .statusParamError => true
  | .statusUnrecognized b => !knownStatuses.contains b

end Sys2Proof
end

