-- ==== Sys2Proof/Decode.lean ====
section
/-! DEFINITION. The decoder, total on any bytes, and the encoder (spec/30_encoding.md R60 to R73). -/

namespace Sys2Proof

open Sys2Proof.Machine

/-- What the decoder reads at the head of a transfer. -/
inductive Decoded where
  /-- An instruction and the bytes after it. -/
  | instr (i : Instr) (rest : List Byte)
  /-- Bytes that are no unit of their channel's format: the operation the spec answers them with (R62, R73, R75; log
  14), and the bytes after it, an operation string. -/
  | instead (i : Instr) (rest : List Byte)
  /-- No byte at all. -/
  | empty
  deriving DecidableEq, Repr

/-! Operand formats (R69). An operation string shorter than its format is an illegal operation (R73, log 4). -/

/-- Format `B`: one byte operand. -/
def takeByte (op : Byte) (k : Byte → Instr) : List Byte → Decoded
  | b :: rest => .instr (k b) rest
  | [] => .instead (.reserved op) []

/-- Format `V`: a 16-bit little-endian count, then that many bytes (R70). -/
def takeSeq (op : Byte) (k : List Byte → Instr) : List Byte → Decoded
  | lo :: hi :: rest =>
    if (le16 lo hi).toNat ≤ rest.length then
      .instr (k (rest.take (le16 lo hi).toNat)) (rest.drop (le16 lo hi).toNat)
    else .instead (.reserved op) []
  | _ => .instead (.reserved op) []

/-- Format `A`: address, command, a one-byte count, then that many payload bytes. -/
def takeBuild (op : Byte) : List Byte → Decoded
  | adr :: cmd :: n :: rest =>
    if n.toNat ≤ rest.length then .instr (.txBuild adr cmd (rest.take n.toNat)) (rest.drop n.toNat)
    else .instead (.reserved op) []
  | _ => .instead (.reserved op) []

/-- An operation string (R69, R72). An unassigned op number is the reserved row: only its op byte is consumed (R73). -/
def decodeOp : List Byte → Decoded
  | [] => .empty
  | op :: rest =>
    match op with
    | 0x01#8 => .instr .crcInit rest
    | 0x02#8 => takeByte op .crcUpd rest
    | 0x03#8 => .instr .crcRd rest
    | 0x04#8 => takeSeq op .crcBlk rest
    | 0x10#8 => takeBuild op rest
    | 0x11#8 => takeByte op .txBuildFx rest
    | 0x20#8 => takeByte op .rxByte rest
    | 0x21#8 => takeSeq op .rxChunk rest
    | 0x22#8 => .instr .rxEos rest
    | 0x23#8 => .instr .rxFlush rest
    | 0x24#8 => .instr .rxStat rest
    | 0x30#8 => takeSeq op .fpParse rest
    | 0x31#8 => takeSeq op .fpCheck rest
    | 0x32#8 => takeByte op .fpStatus rest
    | 0x40#8 => takeSeq op .tdTlv rest
    | 0x41#8 => takeSeq op .tdFix rest
    | 0x50#8 => takeByte op .cfgWr rest
    | 0x51#8 => .instr .cfgRd rest
    | 0x5F#8 => .instr .sysReset rest
    | _ => .instr (.reserved op) rest

/-- A length-status frame: `f[0] + 1` bytes, at least 5 (R61, R62, R71). Every other byte sequence arrives all the same
and is received: a shorter frame is assembled and emitted (R62, R75), an unfinished one is held (R116, R127). -/
def decodeLs (bs : List Byte) : Decoded :=
  match bs with
  | len :: adr :: cs :: rest =>
    if Config.lsOverhead ≤ len.toNat ∧ len.toNat - 2 ≤ rest.length then
      .instr (.wireLs adr cs (rest.take (len.toNat - 4)) (byteAt rest (len.toNat - 4)) (byteAt rest (len.toNat - 3)))
        (rest.drop (len.toNat - 2))
    else .instead (.rxChunk bs) []
  | [] => .empty
  | _ => .instead (.rxChunk bs) []

/-- Bytes read as an operation string (R69), on a channel of another format. -/
def decodeAsOp (bs : List Byte) : Decoded :=
  match decodeOp bs with
  | .instr i rest => .instead i rest
  | d => d

/-- The 9-byte scan command: its constant bytes and its checksum are checked (R64). DESIGN CHOICE (log 14): the block
takes operations in only (R31), so every other byte sequence is an operation string; 0xDD is no op number (R73). -/
def decodeFxCmd (bs : List Byte) : Decoded :=
  match bs with
  | 0xDD#8 :: 0x11#8 :: 0xEF#8 :: 0x09#8 :: m :: 0x01#8 :: 0x01#8 :: lo :: hi :: rest =>
    if [lo, hi] = crcBytes (fxCommandBody m) then .instr (.wireFxCmd m) rest else decodeAsOp bs
  | _ => decodeAsOp bs

/-- A 19-byte fixed-dialect frame (R65). Fewer bytes arrive all the same and are received (R117, R127). -/
def decodeFxIn (bs : List Byte) : Decoded :=
  match bs with
  | b0 :: b1 :: b2 :: b3 :: ant :: b5 :: rssi :: rest =>
    if 12 ≤ rest.length then
      .instr (.wireFxIn b0 b1 b2 b3 ant b5 rssi (rest.take 10) (byteAt rest 10) (byteAt rest 11)) (rest.drop 12)
    else .instead (.rxChunk bs) []
  | [] => .empty
  | _ => .instead (.rxChunk bs) []

/-- A tag-record header byte (R66): every byte is one. -/
def decodeTlvHdr : List Byte → Decoded
  | h :: rest => .instr (.wireTlvHdr (fastidFlag h) (hasphasefreqFlag h) (headerCount h)) rest
  | [] => .empty

/-- A tag record: `header[5:0] + 2` bytes (R67, R71). One that runs past the slice is TD.TLV's to refuse (R75, R152). -/
def decodeTlvRec : List Byte → Decoded
  | h :: rest =>
    if tidCount h < rest.length then
      .instr (.wireTlvRec (fastidFlag h) (hasphasefreqFlag h) (rest.take (tidCount h)) (byteAt rest (tidCount h)))
        (rest.drop (tidCount h + 1))
    else .instead (.tdTlv (h :: rest)) []
  | [] => .empty

/-- A status byte (R63): every byte is one. -/
def decodeStatus : List Byte → Decoded
  | [] => .empty
  | b :: rest =>
    match b with
    | 0x00#8 => .instr .statusSuccess rest
    | 0x01#8 => .instr .statusFinish rest
    | 0x02#8 => .instr .statusOverTime rest
    | 0x03#8 => .instr .statusExtend rest
    | 0x04#8 => .instr .statusOverNumber rest
    | 0xF8#8 => .instr .statusAerialFault rest
    | 0xFF#8 => .instr .statusParamError rest
    | _ => .instr (.statusUnrecognized b) rest

/-- The decoder: total, and a rejection names the operation the bytes get instead. -/
def decode (t : Transfer) : Decoded :=
  match t.chan with
  | .op => decodeOp t.bytes
  | .ls => decodeLs t.bytes
  | .fxCmd => decodeFxCmd t.bytes
  | .fxIn => decodeFxIn t.bytes
  | .tlvHdr => decodeTlvHdr t.bytes
  | .tlvRec => decodeTlvRec t.bytes
  | .status => decodeStatus t.bytes

/-! The encoder. -/

/-- Format `V` (R69, R70): op, count low byte first, the bytes. -/
def encodeSeq (op : Byte) (s : List Byte) : List Byte :=
  op :: lo8 (BitVec.ofNat 16 s.length) :: hi8 (BitVec.ofNat 16 s.length) :: s

/-- Format `A` (R69). -/
def encodeBuild (op adr cmd : Byte) (p : List Byte) : List Byte := op :: adr :: cmd :: BitVec.ofNat 8 p.length :: p

/-- Which channel carries an instruction. -/
def channelOf : Instr → Channel
  | .wireLs _ _ _ _ _ => .ls
  | .wireFxCmd _ => .fxCmd
  | .wireFxIn _ _ _ _ _ _ _ _ _ _ => .fxIn
  | .wireTlvHdr _ _ _ => .tlvHdr
  | .wireTlvRec _ _ _ _ => .tlvRec
  | .statusSuccess | .statusFinish | .statusOverTime | .statusExtend => .status
  | .statusOverNumber | .statusAerialFault | .statusParamError | .statusUnrecognized _ => .status
  | .crcInit | .crcUpd _ | .crcRd | .crcBlk _ | .txBuild _ _ _ | .txBuildFx _ => .op
  | .rxByte _ | .rxChunk _ | .rxEos | .rxFlush | .rxStat | .fpParse _ | .fpCheck _ | .fpStatus _ => .op
  | .tdTlv _ | .tdFix _ | .cfgWr _ | .cfgRd | .sysReset | .reserved _ => .op

/-- The bytes of an instruction, for the well-formed ones (R61 to R67, R69, R72). -/
def encodeBytes : Instr → List Byte
  | .crcInit => [0x01#8]
  | .crcUpd b => [0x02#8, b]
  | .crcRd => [0x03#8]
  | .crcBlk s => encodeSeq 0x04#8 s
  | .txBuild adr cmd p => encodeBuild 0x10#8 adr cmd p
  | .txBuildFx m => [0x11#8, m]
  | .rxByte b => [0x20#8, b]
  | .rxChunk s => encodeSeq 0x21#8 s
  | .rxEos => [0x22#8]
  | .rxFlush => [0x23#8]
  | .rxStat => [0x24#8]
  | .fpParse f => encodeSeq 0x30#8 f
  | .fpCheck f => encodeSeq 0x31#8 f
  | .fpStatus b => [0x32#8, b]
  | .tdTlv s => encodeSeq 0x40#8 s
  | .tdFix f => encodeSeq 0x41#8 f
  | .cfgWr v => [0x50#8, v]
  | .cfgRd => [0x51#8]
  | .sysReset => [0x5F#8]
  | .reserved op => [op]
  | .wireLs adr cs p lo hi => lsFrameWith adr cs p lo hi
  | .wireFxCmd m => fxCommand m
  | .wireFxIn b0 b1 b2 b3 ant b5 rssi tid lo hi => fxInBytes b0 b1 b2 b3 ant b5 rssi tid lo hi
  | .wireTlvHdr f p n => [tlvHeaderByte f p n]
  | .wireTlvRec f p tid rssi => tlvRecordBytes f p tid rssi
  | .statusSuccess => [0x00#8]
  | .statusFinish => [0x01#8]
  | .statusOverTime => [0x02#8]
  | .statusExtend => [0x03#8]
  | .statusOverNumber => [0x04#8]
  | .statusAerialFault => [0xF8#8]
  | .statusParamError => [0xFF#8]
  | .statusUnrecognized b => [b]

/-- An instruction as the transfer that carries it. -/
def encode (i : Instr) : Transfer := { chan := channelOf i, bytes := encodeBytes i }

/-! The opcode table's view: an instruction as one number, first byte least significant. -/

/-- The `n` low bytes of `w`, least significant first. -/
def bytesOfNat : Nat → Nat → List Byte
  | 0, _ => []
  | n + 1, w => BitVec.ofNat 8 w :: bytesOfNat n (w / 256)

/-- `bs` with zero bytes after it, up to `n` bytes. -/
def zeroExtend (bs : List Byte) (n : Nat) : List Byte := bs ++ List.replicate (n - bs.length) 0x00#8

/-- How many bytes the operation at the head of `bs` has (R71), its missing bytes read as zeros. -/
def opLength (bs : List Byte) : Nat :=
  let h := zeroExtend bs 4
  match decodeOp h with
  | .instr _ rest => h.length - rest.length
  | _ => if byteAt h 0 = 0x10#8 then 4 + (byteAt h 3).toNat else 3 + (le16 (byteAt h 1) (byteAt h 2)).toNat

/-- The transfer a table word stands for (log 27): up to 32 bits is an operation string, 72 bits the scan command,
152 bits a fixed-dialect frame; the bytes above `nbits` are zeros. -/
def tableTransfer (nbits w : Nat) : Transfer :=
  let bs := bytesOfNat ((nbits + 7) / 8) w
  if nbits = 72 then { chan := .fxCmd, bytes := bs }
  else if nbits = 152 then { chan := .fxIn, bytes := bs }
  else { chan := .op, bytes := zeroExtend bs (opLength bs) }

/-- The instruction the decoder reads from the word `w` of `nbits` bits; none where it rejects. -/
def decodeTableWord (nbits w : Nat) : Option Instr :=
  match decode (tableTransfer nbits w) with
  | .instr i _ => some i
  | _ => none

end Sys2Proof
end

