-- ==== Sys2Proof/Machine/Fetch.lean ====
section
/-! DEFINITION. Fetching: taking the next operation out of the total order (spec/20_memory.md R49; logs 1 to 5, 14). -/

namespace Sys2Proof.Machine

/-- What the head of the input gives. -/
inductive Fetched where
  /-- An instruction, and the state with its bytes taken. -/
  | run (i : Instr) (s : State)
  /-- Nothing is executed; the state with the transfer taken. -/
  | skip (s : State)
  deriving DecidableEq, Repr

/-- The input with the bytes left of the head transfer in front (DESIGN CHOICE, log 3): nothing left, no transfer. -/
def putBack (chan : Channel) (rest : List Byte) (ts : List Transfer) : List Transfer :=
  match rest with
  | [] => ts
  | b :: bs => { chan := chan, bytes := b :: bs } :: ts

/-- The next instruction. With no operation issued nothing happens (R116, log 2); an empty transfer is no operation
(log 5); bytes that are no unit of their channel's format get the operation the spec answers them with (logs 4, 14). -/
def fetch (s : State) : Fetched :=
  match s.input with
  | [] => .skip s
  | t :: ts =>
    match decode t with
    | .instr i rest => .run i { s with input := putBack t.chan rest ts }
    | .instead i rest => .run i { s with input := putBack .op rest ts }
    | .empty => .skip { s with input := ts }

end Sys2Proof.Machine
end

