-- ==== Sys2Proof/Machine/Step.lean ====
section
/-! DEFINITION. One step: the next operation of the total order is performed (spec/00_scope.md R5, spec/20_memory.md R49). -/

namespace Sys2Proof.Machine

/-- One atomic step. -/
def step (s : State) : Host.Outcome State Fault Refusal :=
  match fetch s with
  | .run i s' => exec i s'
  | .skip s' => .next s'

/-- `s` with the instruction of table word `w` issued as the very next operation (log 1). -/
def State.withFetchWord (s : State) (nbits w : Nat) : State := { s with input := tableTransfer nbits w :: s.input }

end Sys2Proof.Machine
end

