-- ==== Sys2Proof/Machine/Program.lean ====
section
/-! DEFINITION. Sequences of operations and the pseudo-operations of spec/30_encoding.md R77. -/

namespace Sys2Proof.Machine

/-- Operations issued one after the other: the final state and the outcome items in the order produced (R49). -/
def runOps : List Instr → State → Host.Outcome (State × List Item) Fault Refusal
  | [], s => .next (s, [])
  | i :: is, s =>
    match exec i s with
    | .next s' =>
      match runOps is s' with
      | .next (t, items) => .next (t, s'.outcome ++ items)
      | .fault e => .fault e
      | .refused r => .refused r
    | .fault e => .fault e
    | .refused r => .refused r

/-- `RX.DELIVER s, eos` (R77): the bytes first, then the end of stream. -/
def rxDeliver (bs : List Byte) (eos : Bool) : List Instr :=
  .rxChunk bs :: (if eos then [.rxEos] else [])

/-- `CRC.STREAM s` (R77). -/
def crcStream (bs : List Byte) : List Instr := .crcInit :: (bs.map .crcUpd ++ [.crcRd])

end Sys2Proof.Machine
end

