-- ==== Sys2Proof/Machine/Session.lean ====
section
/-! DEFINITION. The host software beside the block (spec/46_host_software.md R176 to R185), outside the machine: `step`
calls nothing of it (R4, log 26). A session reads the block's outcome items; a link is a session with the block it
drives, and issues the block's operations. -/

namespace Sys2Proof.Config

/-- DESIGN CHOICE (log 31): the status byte and its name that a session of the fixed-length dialect reads from a frame.
The source gives that dialect no status byte and no status table (R63, N7, D26), so this is a free value: nothing is
known of it. -/
opaque fxStatus : List Byte → Byte × Machine.StatusName

end Sys2Proof.Config

namespace Sys2Proof.Machine

/-- A TagBatch (R181): a frame and the records extracted from it. -/
structure TagBatch where
  frame : List Byte
  records : List TagRecord
  deriving DecidableEq, Repr

/-- The `code` of an onError call (R178, R182). The block's own kinds are named by the error (N22). -/
inductive ErrorCode where
  /-- A status byte, shown as two lower-case hex digits (R178). -/
  | status (b : Byte)
  /-- An error of the block (R182). -/
  | block (e : Err)
  /-- `"transport"` (R182). -/
  | transport
  deriving DecidableEq, Repr

/-- The `message` of an onError call (R178, R182). -/
inductive ErrorMessage where
  /-- The fixed message of a known status, named by the status: its text is not in the source (N9, O3). -/
  | status (n : StatusName)
  /-- A transport exception's original message (R182, R208). -/
  | text (m : String)
  deriving DecidableEq, Repr

/-- A callback invocation (R178, R181, R182). -/
inductive Callback where
  /-- `onProgress({status: success, batches, finished})`. -/
  | onProgress (batches : List TagBatch) (finished : Bool)
  /-- `onError({code, message})`. -/
  | onError (code : ErrorCode) (message : Option ErrorMessage)
  deriving DecidableEq, Repr

/-- The scan command of a session, in block terms (R177). -/
inductive ScanCommand where
  /-- Built by `TX.BUILD`. -/
  | ls (adr cmd : Byte) (payload : List Byte)
  /-- Built by `TX.BUILDFX`. -/
  | fx (antennaMask : Byte)
  deriving DecidableEq, Repr

/-- The operation that builds the command frame (R177 step 1). -/
def buildOp : ScanCommand → Instr
  | .ls adr cmd payload => .txBuild adr cmd payload
  | .fx antennaMask => .txBuildFx antennaMask

/-- The dialect a command belongs to. -/
def commandDialect : ScanCommand → Dialect
  | .ls _ _ _ => .ls
  | .fx _ => .fx

/-- The per-dialect capability interface a session is generic over (R176): the rest of the session knows no dialect. -/
structure Capability where
  /-- `buildCommand`: `TX.BUILD` or `TX.BUILDFX`. -/
  buildCommand : Instr
  /-- `interpretStatus`: the status byte of a frame and its name (R178). -/
  interpretStatus : List Byte → Except Err (Byte × StatusName)
  /-- `parseTagPayload`: the records of a frame, by `TD.TLV` or `TD.FIX`. -/
  parseTagPayload : List Byte → Except Err (List TagRecord)
  /-- `frameLength`: `target_of`, the size a frame's first byte declares (R118). -/
  frameLength : Byte → BitVec 9

/-- `interpretStatus` of the length-status dialect: `FP.PARSE`, `FP.STATUS` (R178). -/
def lsInterpretStatus (f : List Byte) : Except Err (Byte × StatusName) :=
  (parseFrame f).map (fun fields => (fields.status, statusName fields.status))

/-- `parseTagPayload` of the length-status dialect: `TD.TLV` of the whole payload (R155). -/
def lsParseTagPayload (f : List Byte) : Except Err (List TagRecord) :=
  (parseFrame f).bind (fun fields => decodeTlv fields.payload)

/-- `interpretStatus` of the fixed-length dialect: a free value (DESIGN CHOICE, log 31). -/
def fxInterpretStatus (f : List Byte) : Except Err (Byte × StatusName) := .ok (Config.fxStatus f)

/-- `parseTagPayload` of the fixed-length dialect: the one record of `TD.FIX` (R154, R176). -/
def fxParseTagPayload (p : Params) (f : List Byte) : Except Err (List TagRecord) := (decodeFix p f).map (fun r => [r])

/-- The capabilities of a command's dialect, with the parameters of the block that does `TD.FIX` (R176). -/
def capabilityOf (p : Params) (c : ScanCommand) : Capability :=
  match c with
  | .ls _ _ _ =>
    { buildCommand := buildOp c
      interpretStatus := lsInterpretStatus
      parseTagPayload := lsParseTagPayload
      frameLength := targetOf .ls }
  | .fx _ =>
    { buildCommand := buildOp c
      interpretStatus := fxInterpretStatus
      parseTagPayload := fxParseTagPayload p
      frameLength := targetOf .fx }

/-- Where a session stands (R176). Interpreting is one call between two receives (R183) and so is never held. -/
inductive Phase where
  | idle
  /-- The command frame is with the transport's `send`. -/
  | sending
  | awaitingFrame
  | terminalSuccess
  | terminalError
  | terminalCancelled
  deriving DecidableEq, Repr

/-- A ScanSession's own state (R176), with the frames handed to `send` and the callbacks made so far, oldest first. -/
structure Session where
  /-- What `startScan` was called with, and what the poll loop issues again (R177, R179). -/
  command : ScanCommand
  /-- "configured for continuous polling (the scan-loop mode)" (R179). -/
  polling : Bool
  phase : Phase
  batches : List TagBatch
  cancelled : Bool
  sent : List (List Byte)
  calls : List Callback
  deriving DecidableEq, Repr

/-- A new session. -/
def Session.new (command : ScanCommand) (polling : Bool) : Session :=
  { command := command, polling := polling, phase := .idle, batches := [], cancelled := false, sent := [], calls := [] }

/-- `startScan` (R177): an attempt begins with no batches (R180). -/
def Session.start (x : Session) : Session := { x with phase := .sending, batches := [], cancelled := false }

/-- `stopScan()` (R180): idempotent, and no callback is made. -/
def Session.stop (x : Session) : Session := { x with phase := .terminalCancelled, batches := [], cancelled := true }

/-- One onError call ends the attempt (R182). -/
def Session.fail (code : ErrorCode) (message : Option ErrorMessage) (x : Session) : Session :=
  { x with phase := .terminalError, batches := [], calls := x.calls ++ [.onError code message] }

/-- What `TX.BUILD` or `TX.BUILDFX` answered: the frame is handed to `send` (R177 step 1), an error ends the attempt
(R182). -/
def Session.onBuilt (items : List Item) (x : Session) : Session :=
  match x.phase, items with
  | .sending, [.value (.frameBytes f)] => { x with sent := x.sent ++ [f] }
  | .sending, [.err e] => x.fail (.block e) none
  | _, _ => x

/-- `send` has completed: the receive loop begins (R176, R177 step 2). -/
def Session.onSent (x : Session) : Session :=
  match x.phase with
  | .sending => { x with phase := .awaitingFrame }
  | _ => x

/-- `success` or `finish` (R178): the frame is the terminal batch; the document does not say its payload is decoded
(R155), so it carries no record (log 26). -/
def Session.finish (f : List Byte) (x : Session) : Session :=
  { x with
    phase := .terminalSuccess
    batches := []
    calls := x.calls ++ [.onProgress (x.batches ++ [{ frame := f, records := [] }]) true] }

/-- `extend` (R178): the tag payload is decoded; a malformed one is an error (R182). -/
def Session.extend (c : Capability) (f : List Byte) (x : Session) : Session :=
  match c.parseTagPayload f with
  | .ok rs =>
    { x with
      batches := x.batches ++ [{ frame := f, records := rs }]
      calls := x.calls ++ [.onProgress (x.batches ++ [{ frame := f, records := rs }]) false] }
  | .error e => x.fail (.block e) none

/-- The message key of a status error: unknown codes have no message (R178). -/
def statusMessage : StatusName → Option ErrorMessage
  | .unrecognized _ => none
  | n => some (.status n)

/-- `interpretFrame(frame)` (R178), by the class of the status the dialect reads from it. -/
def Session.interpretFrame (c : Capability) (f : List Byte) (x : Session) : Session :=
  match c.interpretStatus f with
  | .error e => x.fail (.block e) none
  | .ok (code, name) =>
    match statusClass name with
    | .terminalOk => x.finish f
    | .continuation => x.extend c f
    | .terminalSilent => { x with phase := .terminalSuccess, batches := [] }
    | .protocolStatusError => x.fail (.status code) (statusMessage name)
    | .unrecognizedStatus => x.fail (.status code) (statusMessage name)

/-- One outcome item of an `rx` operation (R177): only a session that awaits a frame acts on it (R180, R184). DESIGN
CHOICE (log 32): an item after the terminal one of its attempt, in the same delivery or later, and an item that comes
while no attempt awaits a frame, is dropped without a callback. -/
def Session.onItem (c : Capability) (i : Item) (x : Session) : Session :=
  match x.phase, i with
  | .awaitingFrame, .frame f _ => x.interpretFrame c f
  | .awaitingFrame, .err e => x.fail (.block e) none
  | _, _ => x

/-- The items of an outcome list in order. -/
def Session.onItems (c : Capability) (items : List Item) (x : Session) : Session :=
  items.foldl (fun y i => y.onItem c i) x

/-- A transport exception in `send` or `receive` is to be reported: one of the two is in progress (R182). -/
def Session.inTransport (x : Session) : Bool := decide (x.phase = .sending) || decide (x.phase = .awaitingFrame)

/-- A transport exception (R182): reported once with its message, then the implicit stopScan. With neither call in
progress there is none to report, and a cancelled session reports nothing. -/
def Session.onTransportException (message : String) (x : Session) : Session :=
  if x.inTransport then (x.fail .transport (some (.text message))).stop else x

/-- The poll loop goes round after its delay (R179): the session is configured for it, its attempt came to a terminal
outcome, and nothing cancelled it. An error has stopped the loop (R182). -/
def Session.pollsAgain (x : Session) : Bool :=
  x.polling && decide (x.phase = .terminalSuccess) && !x.cancelled

/-- The text of an error code that is a status byte (R138, R178). -/
def statusCodeText (b : Byte) : List Char := hexLower [b]

/-- An AggregatedTag (R185). -/
structure AggregatedTag where
  tid : List Byte
  rssi : Byte
  count : Nat
  deriving DecidableEq, Repr

/-- One qualifying record into the map (R185): a new tid is appended with its rssi, a known one is counted only. -/
def countRecord (r : TagRecord) : List AggregatedTag → List AggregatedTag
  | [] => [{ tid := r.tid, rssi := r.rssi, count := 1 }]
  | a :: rest => if a.tid = r.tid then { a with count := a.count + 1 } :: rest else a :: countRecord r rest

/-- The records of all batches at or above the threshold, in order (R185). -/
def qualifying (bs : List TagBatch) : List TagRecord :=
  (bs.flatMap (fun b => b.records)).filter (fun r => decide (Config.rssiThreshold ≤ r.rssi.toNat))

/-- `aggregate(batches)` (R185), in order of first insertion. -/
def aggregate (bs : List TagBatch) : List AggregatedTag :=
  (qualifying bs).foldl (fun acc r => countRecord r acc) []

/-! A session and its block. -/

/-- A session with the one block instance it drives (R32). -/
structure Link where
  session : Session
  block : State
  deriving DecidableEq, Repr

/-- The capabilities the session runs on (R176). -/
def Link.capability (l : Link) : Capability := capabilityOf l.block.params l.session.command

/-- Operations issued to the block, and what the session makes of their outcome items, in order (R177, R186). -/
def Link.issue (ops : List Instr) (react : List Item → Session → Session) (l : Link) : Host.Outcome Link Fault Refusal :=
  match runOps ops l.block with
  | .next (t, items) => .next { session := react items l.session, block := t }
  | .fault e => .fault e
  | .refused r => .refused r

/-- The host's duty before the first received byte (R186): the block measures frames in the session's dialect. -/
def Link.configure (checksum : Bool) (l : Link) : Host.Outcome Link Fault Refusal :=
  l.issue [.cfgWr (cfgByte { l.block with dialect := commandDialect l.session.command, crcCheckEn := checksum })]
    (fun _ x => x)

/-- `startScan` (R177 step 1): the command frame is built and handed to the transport. -/
def Link.startScan (l : Link) : Host.Outcome Link Fault Refusal :=
  l.issue [l.capability.buildCommand] (fun items x => x.start.onBuilt items)

/-- One `receive()` result (R175, R177 step 2): `RX.DELIVER`, each item to the session. -/
def Link.deliver (chunk : List Byte) (endOfStream : Bool) (l : Link) : Host.Outcome Link Fault Refusal :=
  l.issue (rxDeliver chunk endOfStream) (fun items x => x.onItems l.capability items)

/-- `stopScan()` (R180): the session stops, and `RX.FLUSH` makes the next attempt start at a frame boundary (R236). -/
def Link.stopScan (l : Link) : Host.Outcome Link Fault Refusal := l.issue [.rxFlush] (fun _ x => x.stop)

/-- A transport exception (R182): the report and the implicit `stopScan()`, its `RX.FLUSH` included (R180, R236). -/
def Link.transportException (message : String) (l : Link) : Host.Outcome Link Fault Refusal :=
  if l.session.inTransport then l.issue [.rxFlush] (fun _ x => x.onTransportException message) else .next l

/-- The poll loop's next round (R179): batches cleared, and from step 1 again. -/
def Link.poll (l : Link) : Host.Outcome Link Fault Refusal :=
  if l.session.pollsAgain then l.startScan else .next l

end Sys2Proof.Machine
end

