-- ==== Sys2Proof/Safety.lean ====
section
/-! DEFINITION. What a good state is: the invariants of spec/10_state.md R26 with the form of `RX_BUF`; and what
"stale" means for `RX_BUF` (R25). -/

namespace Sys2Proof.Safety

open Sys2Proof.Machine

/-- The invariants that hold after reset and after every operation (R26), and the form of memory they rest on. -/
structure Inv (s : State) : Prop where
  /-- `RX_BUF` is in its canonical form (R40). -/
  bufWf : Memory.wf s.rxBuf = true
  /-- Every byte of the frame in progress has been written (R20, R25). -/
  written : ∀ a, a < s.rxLen.toNat → (readByte s.rxBuf a).isSome = true
  /-- `RX_STATE = Idle <=> RX_LEN = 0` (R26). -/
  idleLen : s.rxState = .idle ↔ s.rxLen = 0#9
  /-- `RX_LEN = 0 <=> RX_TARGET = 0` (R26). -/
  lenTarget : s.rxLen = 0#9 ↔ s.rxTarget = 0#9
  /-- `RX_STATE = Accumulating <=> 1 <= RX_LEN < RX_TARGET <= 256` (R26). -/
  accumulating : s.rxState = .accumulating ↔
    1 ≤ s.rxLen.toNat ∧ s.rxLen.toNat < s.rxTarget.toNat ∧ s.rxTarget.toNat ≤ Config.bufCap
  /-- `LS` and `Accumulating`: `RX_TARGET = RX_BUF[0] + 1` (R26). -/
  lsTarget : s.dialect = .ls → s.rxState = .accumulating →
    ∃ b, readByte s.rxBuf 0 = some b ∧ s.rxTarget.toNat = b.toNat + 1
  /-- `FX` and `Accumulating`: `RX_TARGET = 19` (R26). -/
  fxTarget : s.dialect = .fx → s.rxState = .accumulating → s.rxTarget.toNat = Config.fxLen

/-- Two states that differ at most in the bytes of `RX_BUF` the spec gives no meaning: those at `RX_LEN` and above
(R25, U9). -/
structure SameButStale (s t : State) : Prop where
  /-- Every field but `RX_BUF` is equal. -/
  rest : { s with rxBuf := [] } = { t with rxBuf := [] }
  /-- The bytes below `RX_LEN` are equal. -/
  live : ∀ a, a < s.rxLen.toNat → readByte s.rxBuf a = readByte t.rxBuf a

/-- Two outcomes of a step the host cannot tell apart (R223): next states that differ at most in stale bytes, or the
same stop. -/
def Indistinguishable : Result → Result → Prop
  | .next s, .next t => SameButStale s t
  | .fault e, .fault e' => e = e'
  | .refused r, .refused r' => r = r'
  | _, _ => False

/-- An outcome with its next state mapped. -/
def mapNext (g : State → State) : Result → Result
  | .next s => .next (g s)
  | .fault e => .fault e
  | .refused r => .refused r

/-- The bytes an instruction feeds to the reassembler, if it is one that does (R40, R117, R120; log 11). -/
def receivedBytes : Instr → Option (List Byte)
  | .rxByte b => some [b]
  | .rxChunk bs => some bs
  | .wireLs adr cs p lo hi => some (lsFrameWith adr cs p lo hi)
  | .wireFxIn b0 b1 b2 b3 ant b5 rssi tid lo hi => some (fxInBytes b0 b1 b2 b3 ant b5 rssi tid lo hi)
  | .crcInit | .crcUpd _ | .crcRd | .crcBlk _ | .txBuild _ _ _ | .txBuildFx _ | .rxEos | .rxFlush | .rxStat => none
  | .fpParse _ | .fpCheck _ | .fpStatus _ | .tdTlv _ | .tdFix _ | .cfgWr _ | .cfgRd | .sysReset | .reserved _ => none
  | .wireFxCmd _ | .wireTlvHdr _ _ _ | .wireTlvRec _ _ _ _ => none
  | .statusSuccess | .statusFinish | .statusOverTime | .statusExtend => none
  | .statusOverNumber | .statusAerialFault | .statusParamError | .statusUnrecognized _ => none

/-- Receiving `bs` from `s` stores at address `a`: some byte of `bs` comes when `RX_LEN` is `a` (R117). -/
def storesAt (bs : List Byte) (s : State) (a : Nat) : Prop :=
  ∃ k t items, k < bs.length ∧ receiveAll (bs.take k) s = .ok (t, items) ∧ t.rxLen.toNat = a

/-- The instructions that change no state but the outcome they return (R45, R27). -/
def readsOnly : Instr → Bool
  | .crcRd | .crcBlk _ | .txBuild _ _ _ | .txBuildFx _ | .rxStat | .fpParse _ | .fpCheck _ | .fpStatus _ => true
  | .tdTlv _ | .tdFix _ | .cfgRd | .reserved _ | .wireFxCmd _ | .wireTlvHdr _ _ _ | .wireTlvRec _ _ _ _ => true
  | .statusSuccess | .statusFinish | .statusOverTime | .statusExtend => true
  | .statusOverNumber | .statusAerialFault | .statusParamError | .statusUnrecognized _ => true
  | .crcInit | .crcUpd _ | .rxByte _ | .rxChunk _ | .rxEos | .rxFlush | .cfgWr _ | .sysReset => false
  | .wireLs _ _ _ _ _ | .wireFxIn _ _ _ _ _ _ _ _ _ _ => false

/-- Which error an instruction can return (R209). -/
def mayReturn : Instr → Err → Bool
  | .txBuild _ _ _, .payloadTooLong _ => true
  | .rxByte _, .checksumMismatch _ => true
  | .rxChunk _, .checksumMismatch _ => true
  | .wireLs _ _ _ _ _, .checksumMismatch _ => true
  | .wireFxIn _ _ _ _ _ _ _ _ _ _, .checksumMismatch _ => true
  | .rxEos, .transportClosed _ => true
  | .fpParse _, .malformedFrame _ => true
  | .tdTlv _, .malformedPayload _ _ _ => true
  | .tdFix _, .malformedFrame _ => true
  | .cfgWr _, .busy _ => true
  | .reserved _, .illegalOp _ => true
  | _, _ => false

/-- The refusals (R12): errors that leave all state unchanged. -/
def isRefusal : Err → Bool
  | .illegalOp _ => true
  | .busy _ => true
  | .payloadTooLong _ => true
  | .transportClosed _ => false
  | .malformedPayload _ _ _ => false
  | .checksumMismatch _ => false
  | .malformedFrame _ => false

end Sys2Proof.Safety
end

