-- ==== Sys2Proof/Certificates/Slice0/Obligations.lean ====
section
/-! DEFINITION. The statements for the provers. Each docstring names the rules of spec/ it formalises. -/

open Sys2Proof
open Sys2Proof.Machine
open Sys2Proof.Safety

/-! Reset and the invariant. -/

/-- R30, R231: what reset leaves, by hardware reset with any parameters and by SYS.RESET from any state, and the
default of `DIALECT_RESET`. -/
def Obligations.ResetLeavesSpecValues : Prop :=
  (∀ p : Params, (State.resetWith p).dialect = p.dialectReset ∧ (State.resetWith p).crcCheckEn = false ∧
    (State.resetWith p).crcAcc = 0xFFFF#16 ∧ (State.resetWith p).rxState = .idle ∧
    (State.resetWith p).rxLen = 0#9 ∧ (State.resetWith p).rxTarget = 0#9 ∧
    ∃ v : Byte, exec .cfgRd (State.resetWith p) = .next { State.resetWith p with outcome := [.value (.u8 v)] } ∧
      v.toNat < 4) ∧
  (∀ s : State, ∃ t, exec .sysReset s = .next t ∧ t.dialect = s.params.dialectReset ∧ t.crcCheckEn = false ∧
    t.crcAcc = 0xFFFF#16 ∧ t.rxState = .idle ∧ t.rxLen = 0#9 ∧ t.rxTarget = 0#9) ∧
  State.reset.dialect = .ls

/-- R26 at reset, with any parameters. -/
def Obligations.ResetMeetsInvariant : Prop := (∀ p : Params, Inv (State.resetWith p)) ∧ Inv State.reset

/-- R26: every step keeps the invariant, from every state that meets it. -/
def Obligations.StepKeepsInvariant : Prop :=
  ∀ s t : State, Inv s → step s = .next t → Inv t

/-- In an invariant state no instruction faults or is refused, nor does a step on any input whatever, and the invariant
holds after it (R26, R52). -/
def Obligations.InvariantStateNeverStops : Prop :=
  ∀ s : State, Inv s → (∀ i : Instr, ∃ t, exec i s = .next t ∧ Inv t) ∧ ∃ t, step s = .next t ∧ Inv t

/-! The CRC unit. -/

/-- R93. -/
def Obligations.CrcInitResult : Prop :=
  ∀ s : State, exec .crcInit s = .next { s with crcAcc := 0xFFFF#16, outcome := [] }

/-- R94, with its example. -/
def Obligations.CrcUpdResult : Prop :=
  (∀ (s : State) (b : Byte),
    exec (.crcUpd b) s = .next { s with crcAcc := crcStep s.crcAcc b, outcome := [] }) ∧
  crcStep 0xFFFF#16 0x05#8 = 0x582A#16

/-- R95: the accumulator is returned and not re-initialised. -/
def Obligations.CrcRdResult : Prop :=
  ∀ s : State, exec .crcRd s = .next { s with outcome := [.value (.u16 s.crcAcc)] }

/-- R96: the pure checksum; nothing but the outcome changes. -/
def Obligations.CrcBlkResult : Prop :=
  (∀ (s : State) (bs : List Byte), exec (.crcBlk bs) s = .next { s with outcome := [.value (.u16 (crc16 bs))] }) ∧
  crc16 [] = 0xFFFF#16 ∧ crc16 [0x05#8, 0x00#8, 0x10#8] = 0x100F#16

/-- R98 item 3: the streamed checksum is the block checksum, from any state; and appending bytes folds the step on. -/
def Obligations.CrcStreamingEqualsBlock : Prop :=
  (∀ (s : State) (bs : List Byte),
    runOps (crcStream bs) s =
      .next ({ s with crcAcc := crc16 bs, outcome := [.value (.u16 (crc16 bs))] }, [.value (.u16 (crc16 bs))])) ∧
  ∀ bs cs : List Byte, crc16 (bs ++ cs) = cs.foldl crcStep (crc16 bs)

/-- R98 item 4: the residue of a sequence with its checksum appended, low byte first, is zero. -/
def Obligations.CrcResidueIsZero : Prop :=
  ∀ bs : List Byte, crc16 (bs ++ [lo8 (crc16 bs), hi8 (crc16 bs)]) = 0x0000#16

/-- R98 items 5 and 6: the zero fixed point and linearity over XOR. -/
def Obligations.CrcStepIsLinear : Prop :=
  crcStep 0x0000#16 0x00#8 = 0x0000#16 ∧
  (∀ (a a' : Word) (b b' : Byte), crcStep (a ^^^ a') (b ^^^ b') = crcStep a b ^^^ crcStep a' b') ∧
  ∀ (a : Word) (b : Byte), crcStep a b = crcStep (a ^^^ b.setWidth 16) 0x00#8

/-- R92: the table-driven formulation, its table made from R90, equals R91 on every input. -/
def Obligations.CrcTableEqualsBitwise : Prop :=
  (∀ (a : Word) (b : Byte), crcStepByTable a b = crcStep a b) ∧ ∀ bs : List Byte, crc16ByTable bs = crc16 bs

/-- R99: changing one byte always changes the checksum. -/
def Obligations.CrcSeesEveryByteChange : Prop :=
  ∀ (before after : List Byte) (b b' : Byte), b ≠ b' →
    crc16 (before ++ b :: after) ≠ crc16 (before ++ b' :: after)

/-- R135: with two bytes or more, `crc_ok` holds exactly when the checksum of the whole sequence is zero. -/
def Obligations.CrcOkIffResidueZero : Prop :=
  ∀ f : List Byte, 2 ≤ f.length → (crcOk f = true ↔ crc16 f = 0x0000#16)

/-! The TX unit. -/

/-- R106: the frame, for a payload of up to 251 bytes; the refusal above. -/
def Obligations.TxBuildResult : Prop :=
  ∀ (s : State) (adr cmd : Byte) (p : List Byte),
    (p.length ≤ 251 →
      ∃ (len : Byte) (body f : List Byte), len.toNat = 4 + p.length ∧ body = [len, adr, cmd] ++ p ∧
        f = body ++ [lo8 (crc16 body), hi8 (crc16 body)] ∧
        exec (.txBuild adr cmd p) s = .next { s with outcome := [.value (.frameBytes f)] } ∧
        f.length = p.length + 5 ∧ (byteAt f 0).toNat = f.length - 1 ∧ crcOk f = true ∧ crc16 f = 0x0000#16) ∧
    (251 < p.length →
      exec (.txBuild adr cmd p) s = .next { s with outcome := [.err (.payloadTooLong p.length)] })

/-- R107: the nine bytes of the scan command. -/
def Obligations.TxBuildFxResult : Prop :=
  ∀ (s : State) (m : Byte),
    exec (.txBuildFx m) s =
      .next { s with
        outcome := [.value (.frameBytes
          [0xDD#8, 0x11#8, 0xEF#8, 0x09#8, m, 0x01#8, 0x01#8,
           lo8 (crc16 [0xDD#8, 0x11#8, 0xEF#8, 0x09#8, m, 0x01#8, 0x01#8]),
           hi8 (crc16 [0xDD#8, 0x11#8, 0xEF#8, 0x09#8, m, 0x01#8, 0x01#8])])] }

/-- R108: a built frame obeys the Length law and carries its checksum; fed to an `Idle` reassembler in dialect `LS`, cut
in any way, it yields exactly one `Frame(f, crc_ok=1)`; and FP.PARSE gives the operands back. -/
def Obligations.BuildReassembleParse : Prop :=
  ∀ (adr cmd : Byte) (p : List Byte), p.length ≤ 251 →
    ∃ f : List Byte,
      (∀ s : State, exec (.txBuild adr cmd p) s = .next { s with outcome := [.value (.frameBytes f)] }) ∧
      (byteAt f 0).toNat = 4 + p.length ∧
      f = f.take (f.length - 2) ++ [lo8 (crc16 (f.take (f.length - 2))), hi8 (crc16 (f.take (f.length - 2)))] ∧
      (∀ (s : State) (chunks : List (List Byte)), Inv s → s.rxState = .idle → s.dialect = .ls → chunks.flatten = f →
        ∃ t, runOps (chunks.map .rxChunk) s = .next (t, [.frame f true]) ∧ t.rxState = .idle) ∧
      ∀ s : State, ∃ fields : FrameFields,
        exec (.fpParse f) s = .next { s with outcome := [.value (.fields fields)] } ∧
        fields.address = adr ∧ fields.status = cmd ∧ fields.payload = p

/-! The RX unit. -/

/-- R117, R118, R119: what a received byte does, in every invariant state: the first byte sets the target, by the
dialect; the frame goes on, or it is complete, is read out whole and terminates. -/
def Obligations.RxByteResult : Prop :=
  ∀ (s : State) (b : Byte), Inv s →
    ∃ target : BitVec 9,
      (s.rxState = .idle → s.dialect = .ls → target.toNat = b.toNat + 1) ∧
      (s.rxState = .idle → s.dialect = .fx → target.toNat = 19) ∧
      (s.rxState = .accumulating → target = s.rxTarget) ∧
      (s.rxLen.toNat + 1 ≠ target.toNat →
        exec (.rxByte b) s =
          .next { s with
            rxState := .accumulating, rxTarget := target, rxLen := s.rxLen + 1#9,
            rxBuf := writeByte s.rxBuf s.rxLen.toNat b, outcome := [] }) ∧
      (s.rxLen.toNat + 1 = target.toNat →
        ∃ f : List Byte,
          f.length = target.toNat ∧ (∀ i, i < s.rxLen.toNat → f[i]? = readByte s.rxBuf i) ∧
          f[s.rxLen.toNat]? = some b ∧
          exec (.rxByte b) s =
            .next { s with
              rxState := .idle, rxTarget := 0#9, rxLen := 0#9,
              rxBuf := writeByte s.rxBuf s.rxLen.toNat b,
              outcome := [if s.crcCheckEn = true ∧ crcOk f = false then .err (.checksumMismatch f)
                          else .frame f (crcOk f)] })

/-- R120: a chunk is exactly its bytes, one RX.BYTE each, the outcomes concatenated. -/
def Obligations.RxChunkIsItsBytes : Prop :=
  ∀ (s : State) (bs : List Byte), Inv s →
    ∃ t items, runOps (bs.map .rxByte) s = .next (t, items) ∧
      exec (.rxChunk bs) s = .next { t with outcome := items }

/-- R124: the cut of a stream into chunks leaves no trace: same outcomes, same final state. -/
def Obligations.ChunkBoundaryIndependence : Prop :=
  ∀ (s : State) (chunks : List (List Byte)), Inv s →
    ∃ t u items, runOps (chunks.map .rxChunk) s = .next (t, items) ∧
      runOps (chunks.flatten.map .rxByte) s = .next (u, items) ∧
      exec (.rxChunk chunks.flatten) s = .next { t with outcome := items } ∧
      { u with outcome := items } = { t with outcome := items }

/-- R125, first part: every frame that leaves the unit has the size its dialect says. -/
def Obligations.EmittedFramesHaveDeclaredSize : Prop :=
  ∀ (s t : State) (bs : List Byte) (x : Item), Inv s → exec (.rxChunk bs) s = .next t → x ∈ t.outcome →
    ∃ f : List Byte, (x = .frame f (crcOk f) ∨ x = .err (.checksumMismatch f)) ∧
      1 ≤ f.length ∧ f.length ≤ 256 ∧
      (s.dialect = .ls → f.length = (byteAt f 0).toNat + 1) ∧ (s.dialect = .fx → f.length = 19)

/-- R125, second part: a stream of well-formed frames yields one outcome each, in order, and ends `Idle`. -/
def Obligations.WellFormedStreamIsFramed : Prop :=
  ∀ (s : State) (fs : List (List Byte)), Inv s → s.rxState = .idle →
    (s.dialect = .ls → ∀ f ∈ fs, f.length = (byteAt f 0).toNat + 1) →
    (s.dialect = .fx → ∀ f ∈ fs, f.length = 19) →
    ∃ t, exec (.rxChunk fs.flatten) s = .next t ∧ t.rxState = .idle ∧
      t.outcome = fs.map (fun f =>
        if s.crcCheckEn = true ∧ crcOk f = false then .err (.checksumMismatch f) else .frame f (crcOk f))

/-- R121: end of stream is always reported, with the number of bytes discarded. -/
def Obligations.RxEosResult : Prop :=
  ∀ s : State,
    exec .rxEos s =
      .next { s with
        rxState := .idle, rxLen := 0#9, rxTarget := 0#9, outcome := [.err (.transportClosed s.rxLen)] }

/-- R122: the partial frame is dropped, nothing else changes. -/
def Obligations.RxFlushResult : Prop :=
  ∀ s : State,
    exec .rxFlush s = .next { s with rxState := .idle, rxLen := 0#9, rxTarget := 0#9, outcome := [] }

/-- R123. -/
def Obligations.RxStatResult : Prop :=
  ∀ s : State, exec .rxStat s = .next { s with outcome := [.value (.rxStat s.rxState s.rxLen s.rxTarget)] }

/-- The frame of the received bytes (R220, R40): RX.BYTE, RX.CHUNK and an arriving frame change the reassembler only,
and of `RX_BUF` only the bytes stored, each at the `RX_LEN` of its moment. -/
def Obligations.ReceivedBytesFrame : Prop :=
  ∀ (i : Instr) (bs : List Byte) (s t : State), receivedBytes i = some bs → exec i s = .next t →
    t.params = s.params ∧ t.dialect = s.dialect ∧ t.crcCheckEn = s.crcCheckEn ∧ t.crcAcc = s.crcAcc ∧
      t.input = s.input ∧ ∀ a : Nat, ¬ storesAt bs s a → readByte t.rxBuf a = readByte s.rxBuf a

/-! The FP unit. -/

/-- R136: the fields of every sequence of 5 bytes or more whose first byte is its length minus 1; MalformedFrame for
every other. -/
def Obligations.FpParseResult : Prop :=
  (∀ (s : State) (len adr st lo hi : Byte) (p : List Byte), len.toNat = p.length + 4 →
    exec (.fpParse (len :: adr :: st :: (p ++ [lo, hi]))) s =
      .next { s with
        outcome := [.value (.fields
          { length := len, address := adr, status := st, payload := p, crc := le16 lo hi
            crcOk := crcOk (len :: adr :: st :: (p ++ [lo, hi])) })] }) ∧
  ∀ (s : State) (f : List Byte), f.length < 5 ∨ (byteAt f 0).toNat ≠ f.length - 1 →
    exec (.fpParse f) s = .next { s with outcome := [.err (.malformedFrame f.length)] }

/-- R137, R135: `crc_ok` of any sequence: the trailing two bytes, low first, are the checksum of what is before them;
0 below two bytes. -/
def Obligations.FpCheckResult : Prop :=
  (∀ (s : State) (body : List Byte) (lo hi : Byte),
    exec (.fpCheck (body ++ [lo, hi])) s =
      .next { s with outcome := [.value (.crcOk (decide (crc16 body = le16 lo hi)))] }) ∧
  ∀ (s : State) (f : List Byte), f.length < 2 →
    exec (.fpCheck f) s = .next { s with outcome := [.value (.crcOk false)] }

/-- R138, R139: the name and class of every status byte. -/
def Obligations.FpStatusResult : Prop :=
  ∀ (s : State) (b : Byte), ∃ (n : StatusName) (c : StatusClass),
    exec (.fpStatus b) s = .next { s with outcome := [.value (.status n c)] } ∧
    (b = 0x00#8 → n = .success ∧ c = .terminalOk) ∧
    (b = 0x01#8 → n = .finish ∧ c = .terminalOk) ∧
    (b = 0x02#8 → n = .overTime ∧ c = .terminalSilent) ∧
    (b = 0x03#8 → n = .extend ∧ c = .continuation) ∧
    (b = 0x04#8 → n = .overNumber ∧ c = .protocolStatusError) ∧
    (b = 0xF8#8 → n = .aerialFault ∧ c = .protocolStatusError) ∧
    (b = 0xFF#8 → n = .paramError ∧ c = .protocolStatusError) ∧
    (b ∉ [0x00#8, 0x01#8, 0x02#8, 0x03#8, 0x04#8, 0xF8#8, 0xFF#8] → n = .unrecognized b ∧ c = .unrecognizedStatus)

/-- R140: parsing inverts building, and building inverts parsing for every accepted frame with `crc_ok = 1`. -/
def Obligations.ParseInvertsBuild : Prop :=
  (∀ (s : State) (adr cmd : Byte) (p : List Byte), p.length ≤ 251 →
    ∃ (f : List Byte) (len : Byte), len.toNat = 4 + p.length ∧
      exec (.txBuild adr cmd p) s = .next { s with outcome := [.value (.frameBytes f)] } ∧
      exec (.fpParse f) s =
        .next { s with
          outcome := [.value (.fields
            { length := len, address := adr, status := cmd, payload := p
              crc := crc16 ([len, adr, cmd] ++ p), crcOk := true })] }) ∧
  ∀ (s : State) (f : List Byte) (fields : FrameFields),
    exec (.fpParse f) s = .next { s with outcome := [.value (.fields fields)] } → fields.crcOk = true →
    exec (.txBuild (byteAt f 1) (byteAt f 2) (slice f 3 (f.length - 2))) s =
      .next { s with outcome := [.value (.frameBytes f)] }

/-! The TD unit. -/

/-- R152: every slice is a list of records, or records and then a header whose record does not fit; the first is
returned, the second is MalformedPayload with the header's offset, its `N` and the number of records before it. -/
def Obligations.TdTlvResult : Prop :=
  (∀ (s : State) (rs : List TagRecord), (∀ r ∈ rs, r.antenna = none ∧ r.tid.length ≤ 63) →
    exec (.tdTlv (rs.flatMap (fun r => tlvRecordBytes r.fastid r.hasphasefreq r.tid r.rssi))) s =
      .next { s with outcome := [.value (.records rs)] }) ∧
  (∀ (s : State) (rs : List TagRecord) (h : Byte) (rest bs : List Byte),
    (∀ r ∈ rs, r.antenna = none ∧ r.tid.length ≤ 63) →
    bs = rs.flatMap (fun r => tlvRecordBytes r.fastid r.hasphasefreq r.tid r.rssi) →
    (h :: rest).length < 2 + tidCount h →
    exec (.tdTlv (bs ++ h :: rest)) s =
      .next { s with outcome := [.err (.malformedPayload bs.length (tidCount h) rs.length)] }) ∧
  ∀ bs : List Byte, ∃ rs : List TagRecord, (∀ r ∈ rs, r.antenna = none ∧ r.tid.length ≤ 63) ∧
    (bs = rs.flatMap (fun r => tlvRecordBytes r.fastid r.hasphasefreq r.tid r.rssi) ∨
     ∃ (h : Byte) (rest : List Byte), (h :: rest).length < 2 + tidCount h ∧
      bs = rs.flatMap (fun r => tlvRecordBytes r.fastid r.hasphasefreq r.tid r.rssi) ++ h :: rest)

/-- R153 items 1, 2, 3 and 5: the number of records, exact consumption, concatenation, and the bounds for a payload
out of an LS frame. -/
def Obligations.TlvLaws : Prop :=
  (∀ (bs : List Byte) (rs : List TagRecord), decodeTlv bs = .ok rs →
    rs.length ≤ bs.length / 2 ∧ (rs.map (fun r => 2 + r.tid.length)).sum = bs.length ∧
    (bs.length ≤ 251 → rs.length ≤ 125)) ∧
  (∀ (bs cs : List Byte) (rs rs' : List TagRecord), decodeTlv bs = .ok rs → decodeTlv cs = .ok rs' →
    decodeTlv (bs ++ cs) = .ok (rs ++ rs')) ∧
  (∀ (bs cs : List Byte) (rs : List TagRecord) (cur n count : Nat), decodeTlv bs = .ok rs →
    decodeTlv cs = .error (.malformedPayload cur n count) →
    decodeTlv (bs ++ cs) = .error (.malformedPayload (bs.length + cur) n (rs.length + count))) ∧
  ∀ (bs : List Byte) (e : Err), decodeTlv bs = .error e →
    ∃ cur n count, e = .malformedPayload cur n count ∧ cur < bs.length ∧ count ≤ bs.length / 2 ∧
      bs.length < cur + 2 + n

/-- R154: the record of a 19-byte frame, with the TID range a parameter and, at its default, the ten bytes 7 to 16;
MalformedFrame for any other length. -/
def Obligations.TdFixResult : Prop :=
  (∀ (s : State) (b0 b1 b2 b3 ant b5 rssi lo hi : Byte) (tid : List Byte),
    s.params.fxTidLo = 7 → s.params.fxTidHi = 16 → tid.length = 10 →
    exec (.tdFix ([b0, b1, b2, b3, ant, b5, rssi] ++ tid ++ [lo, hi])) s =
      .next { s with
        outcome := [.value (.record
          { tid := tid, rssi := rssi, antenna := some ant, fastid := false, hasphasefreq := false })] }) ∧
  (∀ (s : State) (f : List Byte), s.params.wf = true → f.length = 19 →
    ∃ r : TagRecord, exec (.tdFix f) s = .next { s with outcome := [.value (.record r)] } ∧
      r.tid.length = s.params.fxTidHi + 1 - s.params.fxTidLo ∧
      (∀ k, k < r.tid.length → r.tid[k]? = f[s.params.fxTidLo + k]?) ∧
      f[6]? = some r.rssi ∧ r.antenna = f[4]? ∧ r.fastid = false ∧ r.hasphasefreq = false) ∧
  ∀ (s : State) (f : List Byte), f.length ≠ 19 →
    exec (.tdFix f) s = .next { s with outcome := [.err (.malformedFrame f.length)] }

/-! Configuration, reset, illegal operations. -/

/-- R165: `DIALECT + 2 * CRC_CHECK_EN`, bits 7:2 zero, in every state. -/
def Obligations.CfgRdResult : Prop :=
  ∀ s : State, ∃ v : Byte, exec .cfgRd s = .next { s with outcome := [.value (.u8 v)] } ∧
    v.toNat = (if s.dialect = .fx then 1 else 0) + 2 * (if s.crcCheckEn = true then 1 else 0)

/-- R166: the write and what CFG.RD then returns; `Busy` while a frame is being assembled. -/
def Obligations.CfgWrResult : Prop :=
  ∀ (s : State) (v : Byte),
    (s.rxState = .idle →
      ∃ t, exec (.cfgWr v) s = .next t ∧
        t = { s with
              dialect := if v.getLsbD 0 = true then .fx else .ls, crcCheckEn := v.getLsbD 1, outcome := [] } ∧
        exec .cfgRd t = .next { t with outcome := [.value (.u8 (v &&& 0x03#8))] }) ∧
    (s.rxState = .accumulating →
      exec (.cfgWr v) s = .next { s with outcome := [.err (.busy s.rxLen)] })

/-- R167: every register at its value of R30, whatever the state was; nothing but the outcome list and the operations
still to come tells the state from a hardware reset. That `RX_BUF` lists nothing is the model's choice (log 8: the rule
calls its contents meaningless), and `params` and `input` are the model's own fields (logs 9 and 1). -/
def Obligations.SysResetResult : Prop :=
  ∀ s : State, exec .sysReset s = .next { State.resetWith s.params with input := s.input, outcome := [] }

/-- R168: an unassigned op number is refused, and nothing but the outcome changes. -/
def Obligations.ReservedResult : Prop :=
  ∀ (s : State) (op : Byte), exec (.reserved op) s = .next { s with outcome := [.err (.illegalOp op)] }

/-! The table's wire rows. Their meanings are the model's choice (logs 11, 12 and 14), over the rules cited. -/

/-- An arriving LS frame (R61, R120): received byte by byte in any invariant state; from `Idle` in dialect `LS` it
yields exactly one item and the unit is `Idle` again. A frame of Length 0 to 3 (R62, R75), and one still unfinished
(R127), are received too. -/
def Obligations.WireLsArrives : Prop :=
  (∀ (s : State) (adr cs lo hi : Byte) (p : List Byte), Inv s → p.length ≤ 251 →
    ∃ (len : Byte) (f : List Byte) (t : State) (items : List Item),
      len.toNat = 4 + p.length ∧ f = len :: adr :: cs :: (p ++ [lo, hi]) ∧
      runOps (f.map .rxByte) s = .next (t, items) ∧
      exec (.wireLs adr cs p lo hi) s = .next { t with outcome := items } ∧
      (s.rxState = .idle → s.dialect = .ls →
        t.rxState = .idle ∧
        items = [if s.crcCheckEn = true ∧ crcOk f = false then .err (.checksumMismatch f) else .frame f (crcOk f)])) ∧
  ∀ (s : State) (len : Byte) (rest : List Byte) (ts : List Transfer),
    s.input = { chan := .ls, bytes := len :: rest } :: ts → len.toNat ≤ 3 ∨ rest.length < len.toNat →
    step s = exec (.rxChunk (len :: rest)) { s with input := ts }

/-- An arriving FX frame (R65, R120): the same over its 19 bytes. Fewer bytes are received too (R127). -/
def Obligations.WireFxInArrives : Prop :=
  (∀ (s : State) (b0 b1 b2 b3 ant b5 rssi lo hi : Byte) (tid : List Byte), Inv s → tid.length = 10 →
    ∃ (f : List Byte) (t : State) (items : List Item),
      f = [b0, b1, b2, b3, ant, b5, rssi] ++ tid ++ [lo, hi] ∧
      runOps (f.map .rxByte) s = .next (t, items) ∧
      exec (.wireFxIn b0 b1 b2 b3 ant b5 rssi tid lo hi) s = .next { t with outcome := items } ∧
      (s.rxState = .idle → s.dialect = .fx →
        t.rxState = .idle ∧
        items = [if s.crcCheckEn = true ∧ crcOk f = false then .err (.checksumMismatch f) else .frame f (crcOk f)])) ∧
  ∀ (s : State) (bs : List Byte) (ts : List Transfer),
    s.input = { chan := .fxIn, bytes := bs } :: ts → 0 < bs.length → bs.length < 19 →
    step s = exec (.rxChunk bs) { s with input := ts }

/-- The scan command on the wire (R64): the bytes TX.BUILDFX gives. Bytes that are not one are an operation string
(R69, R73). -/
def Obligations.WireFxCmdResult : Prop :=
  (∀ (s : State) (m : Byte), ∃ f : List Byte,
    exec (.wireFxCmd m) s = .next { s with outcome := [.value (.frameBytes f)] } ∧
    f.take 7 = [0xDD#8, 0x11#8, 0xEF#8, 0x09#8, m, 0x01#8, 0x01#8] ∧ f.length = 9 ∧ crc16 f = 0x0000#16) ∧
  ∀ (s : State) (bs : List Byte) (ts : List Transfer),
    s.input = { chan := .fxCmd, bytes := bs } :: ts → (∀ m : Byte, ¬ fxCommand m <+: bs) →
    step s = step { s with input := { chan := .op, bytes := bs } :: ts }

/-- A header byte (R66): its three fields come back. -/
def Obligations.WireTlvHdrResult : Prop :=
  ∀ (s : State) (f p : Bool) (n : BitVec 6),
    exec (.wireTlvHdr f p n) s =
      .next { s with outcome := [.value (.tlvHeader { fastid := f, hasphasefreq := p, n := n })] }

/-- A record (R67, R152): decoded to itself. One that runs past the bytes there are is MalformedPayload (R75). -/
def Obligations.WireTlvRecResult : Prop :=
  (∀ (s : State) (f p : Bool) (tid : List Byte) (rssi : Byte), tid.length ≤ 63 →
    exec (.wireTlvRec f p tid rssi) s =
      .next { s with
        outcome := [.value (.records
          [{ tid := tid, rssi := rssi, antenna := none, fastid := f, hasphasefreq := p }])] }) ∧
  ∀ (s : State) (h : Byte) (rest : List Byte) (ts : List Transfer),
    s.input = { chan := .tlvRec, bytes := h :: rest } :: ts → (h :: rest).length < 2 + tidCount h →
    step s = .next { s with input := ts, outcome := [.err (.malformedPayload 0 (tidCount h) 0)] }

/-- The eight rows of the status format (R63, R139). -/
def Obligations.StatusRowsResult : Prop :=
  ∀ s : State,
    exec .statusSuccess s = .next { s with outcome := [.value (.status .success .terminalOk)] } ∧
    exec .statusFinish s = .next { s with outcome := [.value (.status .finish .terminalOk)] } ∧
    exec .statusOverTime s = .next { s with outcome := [.value (.status .overTime .terminalSilent)] } ∧
    exec .statusExtend s = .next { s with outcome := [.value (.status .extend .continuation)] } ∧
    exec .statusOverNumber s = .next { s with outcome := [.value (.status .overNumber .protocolStatusError)] } ∧
    exec .statusAerialFault s = .next { s with outcome := [.value (.status .aerialFault .protocolStatusError)] } ∧
    exec .statusParamError s = .next { s with outcome := [.value (.status .paramError .protocolStatusError)] } ∧
    ∀ b : Byte, b ∉ [0x00#8, 0x01#8, 0x02#8, 0x03#8, 0x04#8, 0xF8#8, 0xFF#8] →
      exec (.statusUnrecognized b) s =
        .next { s with outcome := [.value (.status (.unrecognized b) .unrecognizedStatus)] }

/-! Rules about the whole machine. -/

/-- R22: no operation but CRC.INIT, CRC.UPD, CRC.RD and the reset reads or writes `CRC_ACC`: with any other value in
it, everything else comes out the same. -/
def Obligations.AccumulatorIsPrivate : Prop :=
  ∀ (i : Instr) (s : State) (v : Word), i ≠ .crcInit → (∀ b, i ≠ .crcUpd b) → i ≠ .crcRd → i ≠ .sysReset →
    exec i { s with crcAcc := v } = mapNext (fun t => { t with crcAcc := v }) (exec i s) ∧
    ∀ t, exec i s = .next t → t.crcAcc = s.crcAcc

/-- R20, R21: only CFG.WR and the reset change `CFG`. -/
def Obligations.OnlyCfgWriteChangesCfg : Prop :=
  ∀ (i : Instr) (s t : State), exec i s = .next t → (∀ v, i ≠ .cfgWr v) → i ≠ .sysReset →
    t.dialect = s.dialect ∧ t.crcCheckEn = s.crcCheckEn

/-- R20, R116: only received bytes, RX.EOS, RX.FLUSH and the reset change the reassembler. -/
def Obligations.OnlyRxChangesReassembler : Prop :=
  ∀ (i : Instr) (s t : State), exec i s = .next t → receivedBytes i = none → i ≠ .rxEos → i ≠ .rxFlush → i ≠ .sysReset →
    t.rxState = s.rxState ∧ t.rxLen = s.rxLen ∧ t.rxTarget = s.rxTarget ∧
      ∀ a, readByte t.rxBuf a = readByte s.rxBuf a

/-- No instruction changes the parameters or the operations still to come (R7, R49; logs 1 and 9). -/
def Obligations.ParametersAndInputKept : Prop :=
  ∀ (i : Instr) (s t : State), exec i s = .next t → t.params = s.params ∧ t.input = s.input

/-- R45: the reading operations change nothing but the outcome and answer alike when issued twice; CRC.INIT, RX.FLUSH,
SYS.RESET and CFG.WR are idempotent on the state, `Busy` included. -/
def Obligations.ReadsAndIdempotence : Prop :=
  (∀ (i : Instr) (s : State), readsOnly i = true →
    ∃ items, exec i s = .next { s with outcome := items } ∧
      exec i { s with outcome := items } = .next { s with outcome := items }) ∧
  ∀ (i : Instr) (s : State), (i = .crcInit ∨ i = .rxFlush ∨ i = .sysReset ∨ ∃ v, i = .cfgWr v) →
    ∃ t, exec i s = .next t ∧ exec i t = .next t

/-- R209: which error each operation can return; ChecksumMismatch only with validation on. -/
def Obligations.ErrorsByOperation : Prop :=
  ∀ (i : Instr) (s t : State) (e : Err), exec i s = .next t → .err e ∈ t.outcome →
    (∀ f p tid rssi, i = .wireTlvRec f p tid rssi → tid.length ≤ 63) →
    mayReturn i e = true ∧ (∀ f, e = .checksumMismatch f → s.crcCheckEn = true ∧ crcOk f = false)

/-- R12: every operation but RX.CHUNK (and an arriving frame, which is one) returns at most one item; a refusal leaves
all state unchanged. -/
def Obligations.OneItemAndRefusals : Prop :=
  (∀ (i : Instr) (s t : State), exec i s = .next t → (∀ bs, receivedBytes i = some bs → ∃ b, i = .rxByte b) →
    t.outcome.length ≤ 1) ∧
  ∀ (i : Instr) (s t : State) (e : Err), exec i s = .next t → .err e ∈ t.outcome → isRefusal e = true →
    t = { s with outcome := [.err e] }

/-- R212: the stateless units' errors change no state; TransportClosed, and ChecksumMismatch from RX.BYTE, leave the
reassembler `Idle` and empty and everything outside it unchanged. -/
def Obligations.ErrorsArePrecise : Prop :=
  (∀ (i : Instr) (s t : State) (e : Err), exec i s = .next t → .err e ∈ t.outcome →
    (∀ k, e ≠ .transportClosed k) → (∀ f, e ≠ .checksumMismatch f) → t = { s with outcome := [.err e] }) ∧
  ∀ (i : Instr) (s t : State) (e : Err), exec i s = .next t → .err e ∈ t.outcome →
    (i = .rxEos ∨ ∃ b, i = .rxByte b) →
    t.rxState = .idle ∧ t.rxLen = 0#9 ∧ t.rxTarget = 0#9 ∧ t.dialect = s.dialect ∧ t.crcCheckEn = s.crcCheckEn ∧
      t.crcAcc = s.crcAcc ∧ t.outcome = [.err e]

/-- R25, R223: the bytes of `RX_BUF` at `RX_LEN` and above are never seen: two states that differ only there give the
same outcome for every instruction, and differ only there afterwards. -/
def Obligations.StaleBytesUnobservable : Prop :=
  ∀ (s t : State), SameButStale s t → ∀ i : Instr, Indistinguishable (exec i s) (exec i t)

/-! Encoding and stepping. -/

/-- R61 to R73: the decoder reads every encoded well-formed instruction back, whatever bytes follow it. -/
def Obligations.DecodeInvertsEncode : Prop :=
  ∀ (i : Instr) (rest : List Byte), wellFormed i = true →
    decode { chan := channelOf i, bytes := encodeBytes i ++ rest } = .instr i rest

/-- The other direction: what the decoder accepts is the encoding of the well-formed instruction it answers. -/
def Obligations.EncodeInvertsDecode : Prop :=
  ∀ (t : Transfer) (i : Instr) (rest : List Byte), decode t = .instr i rest →
    wellFormed i = true ∧ t = { chan := channelOf i, bytes := encodeBytes i ++ rest }

/-- R73: an unassigned op number, and an operation string cut short anywhere, are refused with the op byte and no
change of state. -/
def Obligations.IllegalOpRefused : Prop :=
  (∀ (s : State) (ts : List Transfer) (op : Byte) (rest : List Byte),
    s.input = { chan := .op, bytes := op :: rest } :: ts → op ∉ assignedOps →
    ∃ inp, step s = .next { s with input := inp, outcome := [.err (.illegalOp op)] }) ∧
  ∀ (s : State) (ts : List Transfer) (i : Instr) (k : Nat), wellFormed i = true → channelOf i = .op →
    0 < k → k < (encodeBytes i).length → s.input = { chan := .op, bytes := (encodeBytes i).take k } :: ts →
    ∃ inp, step s = .next { s with input := inp, outcome := [.err (.illegalOp (byteAt (encodeBytes i) 0))] }

/-- A step runs the decoded instruction (R5, R49; logs 1, 2, 3): with its bytes taken from the input it is `exec` of it,
and so it is of the operation that bytes of no format get instead (log 14); with no operation issued, and on an empty
transfer (log 5), nothing happens. -/
def Obligations.StepRunsDecodedInstruction : Prop :=
  (∀ (s : State) (t : Transfer) (ts : List Transfer) (i : Instr) (rest : List Byte),
    s.input = t :: ts → decode t = .instr i rest →
    step s = exec i { s with input := if rest = [] then ts else { chan := t.chan, bytes := rest } :: ts }) ∧
  (∀ (s : State) (t : Transfer) (ts : List Transfer) (i : Instr) (rest : List Byte),
    s.input = t :: ts → decode t = .instead i rest →
    step s = exec i { s with input := if rest = [] then ts else { chan := .op, bytes := rest } :: ts }) ∧
  (∀ s : State, s.input = [] → step s = .next s) ∧
  ∀ (s : State) (chan : Channel) (ts : List Transfer),
    s.input = { chan := chan, bytes := [] } :: ts → step s = .next { s with input := ts }

/-- A few words written from R69 and R72 and what they stand for. -/
def Obligations.SpecWordsDecode : Prop :=
  decode { chan := .op, bytes := [0x02#8, 0x05#8] } = .instr (.crcUpd 0x05#8) [] ∧
  decode { chan := .op, bytes := [0x10#8, 0x00#8, 0x01#8, 0x00#8] } = .instr (.txBuild 0x00#8 0x01#8 []) [] ∧
  decode { chan := .op, bytes := [0x21#8, 0x02#8, 0x00#8, 0x0E#8, 0x00#8] } = .instr (.rxChunk [0x0E#8, 0x00#8]) [] ∧
  decode { chan := .op, bytes := [0x32#8, 0xF8#8] } = .instr (.fpStatus 0xF8#8) [] ∧
  decode { chan := .op, bytes := [0x40#8, 0x02#8, 0x00#8, 0x00#8, 0x37#8] } = .instr (.tdTlv [0x00#8, 0x37#8]) [] ∧
  decode { chan := .op, bytes := [0x5F#8] } = .instr .sysReset []

/-! The host software beside the block. -/

/-- R185: over the records of all batches with rssi 60 or more, one aggregated tag per tid, in order of first insertion,
with the first record's rssi and the number of records. -/
def Obligations.AggregateFirstInsertionWins : Prop :=
  ∀ (bs : List TagBatch) (q : List TagRecord),
    q = (bs.flatMap (fun b => b.records)).filter (fun r => decide (60 ≤ r.rssi.toNat)) →
    (aggregate bs).map (fun a => a.tid) = (q.map (fun r => r.tid)).eraseDups ∧
    ∀ a ∈ aggregate bs, a.count = q.countP (fun r => decide (r.tid = a.tid)) ∧ 1 ≤ a.count ∧
      (q.find? (fun r => decide (r.tid = a.tid))).map (fun r => r.rssi) = some a.rssi

/-- R181: `extend` frames and then a terminal one give one onProgress call each, the last with `finished: true` and all
the batches; whatever the capabilities the session runs on (R176), and, in its own terms, for the length-status dialect.
What a frame of the fixed-length dialect brings as an `extend` frame is the record of TD.FIX (which frames are read so
is a free value, log 31). -/
def Obligations.MultiFrameProgress : Prop :=
  (∀ (c : Capability) (x : Session) (fs : List (List Byte × Bool)) (last : List Byte) (ok : Bool) (code : Byte)
      (name : StatusName),
    x.phase = .awaitingFrame → x.batches = [] →
    (∀ f ∈ fs, ∃ k rs, c.interpretStatus f.1 = .ok (k, .extend) ∧ c.parseTagPayload f.1 = .ok rs) →
    c.interpretStatus last = .ok (code, name) → statusClass name = .terminalOk →
    ∃ (calls : List Callback) (bs : List TagBatch),
      (x.onItems c (fs.map (fun f => .frame f.1 f.2) ++ [.frame last ok])).calls = x.calls ++ calls ∧
      calls.length = fs.length + 1 ∧ calls.getLast? = some (.onProgress bs true) ∧
      bs.map (fun b => b.frame) = fs.map (fun f => f.1) ++ [last] ∧ bs.length = fs.length + 1 ∧
      (∀ k ∈ calls.dropLast, ∃ bs', k = .onProgress bs' false) ∧
      (x.onItems c (fs.map (fun f => .frame f.1 f.2) ++ [.frame last ok])).phase = .terminalSuccess) ∧
  (∀ (p : Params) (adr cmd : Byte) (payload : List Byte) (x : Session) (fs : List (List Byte × Bool))
      (last : List Byte) (ok : Bool) (fields : FrameFields),
    x.phase = .awaitingFrame → x.batches = [] →
    (∀ f ∈ fs, ∃ g rs, parseFrame f.1 = .ok g ∧ g.status = 0x03#8 ∧ decodeTlv g.payload = .ok rs) →
    parseFrame last = .ok fields → (fields.status = 0x00#8 ∨ fields.status = 0x01#8) →
    ∃ (calls : List Callback) (bs : List TagBatch) (y : Session),
      y = x.onItems (capabilityOf p (.ls adr cmd payload)) (fs.map (fun f => .frame f.1 f.2) ++ [.frame last ok]) ∧
      y.calls = x.calls ++ calls ∧ calls.length = fs.length + 1 ∧ calls.getLast? = some (.onProgress bs true) ∧
      bs.length = fs.length + 1 ∧ (∀ c ∈ calls.dropLast, ∃ bs', c = .onProgress bs' false) ∧
      y.phase = .terminalSuccess) ∧
  ∀ (p : Params) (mask : Byte) (x : Session) (f : List Byte), f.length = 19 →
    ∃ r : TagRecord, decodeFix p f = .ok r ∧
      x.extend (capabilityOf p (.fx mask)) f =
        { x with
          batches := x.batches ++ [{ frame := f, records := [r] }]
          calls := x.calls ++ [.onProgress (x.batches ++ [{ frame := f, records := [r] }]) false] }

/-- R180: after stopScan no outcome makes a callback and the poll loop (R179) does not go round, it is idempotent, and
the next startScan finds no batches and, after its RX.FLUSH (R236), an `Idle` reassembler, whatever the block's state. A
transport exception of `send` or `receive` (R182) is reported exactly once, with its message, and then the session is
as after stopScan. Without an exception or a stop the poll loop goes round after a terminal outcome, and only where the
session is configured for it (R179). -/
def Obligations.StopScanSilences : Prop :=
  (∀ (c : Capability) (x : Session) (items : List Item) (message : String),
    x.stop.onItems c items = x.stop ∧ x.stop.onTransportException message = x.stop ∧ x.stop.calls = x.calls ∧
      x.stop.stop = x.stop ∧ x.stop.pollsAgain = false ∧ x.stop.start.batches = []) ∧
  (∀ l : Link, ∃ u : Link, l.stopScan = .next u ∧ u.session = l.session.stop ∧
    u.block = { l.block with rxState := .idle, rxLen := 0#9, rxTarget := 0#9, outcome := [] }) ∧
  (∀ (l : Link) (message : String), l.session.phase = .sending ∨ l.session.phase = .awaitingFrame →
    ∃ u : Link, l.transportException message = .next u ∧
      u.session = { l.session.stop with calls := l.session.calls ++ [.onError .transport (some (.text message))] } ∧
      u.block = { l.block with rxState := .idle, rxLen := 0#9, rxTarget := 0#9, outcome := [] }) ∧
  ∀ l : Link,
    (l.session.polling = true ∧ l.session.phase = .terminalSuccess ∧ l.session.cancelled = false →
      l.poll = l.startScan ∧ ∃ u : Link, l.startScan = .next u ∧ u.session.batches = []) ∧
    (l.session.polling = false ∨ l.session.phase ≠ .terminalSuccess ∨ l.session.cancelled = true → l.poll = .next l)
end

