-- ==== Sys2Proof/Laws/Bytes.lean ====
section
/-! SUPPORT. Byte order, slices and the fields of a record header: each function's small lemmas. -/

namespace Sys2Proof.Laws.Bytes

open Sys2Proof.Machine

theorem le16_toNat (lo hi : Byte) : (le16 lo hi).toNat = lo.toNat + 256 * hi.toNat := by
  unfold le16; bv_omega

theorem lo8_toNat (w : Word) : (lo8 w).toNat = w.toNat % 256 := by simp [lo8]

theorem hi8_toNat (w : Word) : (hi8 w).toNat = w.toNat / 256 := by
  simp only [hi8, BitVec.toNat_setWidth, BitVec.toNat_ushiftRight, Nat.shiftRight_eq_div_pow]
  have := w.isLt
  omega

@[simp] theorem lo8_le16 (lo hi : Byte) : lo8 (le16 lo hi) = lo := by
  apply BitVec.eq_of_toNat_eq; rw [lo8_toNat, le16_toNat]; have := lo.isLt; omega

@[simp] theorem hi8_le16 (lo hi : Byte) : hi8 (le16 lo hi) = hi := by
  apply BitVec.eq_of_toNat_eq; rw [hi8_toNat, le16_toNat]; have := lo.isLt; omega

@[simp] theorem le16_lo8_hi8 (w : Word) : le16 (lo8 w) (hi8 w) = w := by
  apply BitVec.eq_of_toNat_eq; rw [le16_toNat, lo8_toNat, hi8_toNat]; omega

theorem slice_length (s : List Byte) (a b : Nat) : (slice s a b).length = min b s.length - a := by
  simp [slice]

theorem slice_zero (s : List Byte) (b : Nat) : slice s 0 b = s.take b := by simp [slice]

@[simp] theorem byteAt_cons_zero (b : Byte) (s : List Byte) : byteAt (b :: s) 0 = b := rfl

@[simp] theorem byteAt_cons_succ (b : Byte) (s : List Byte) (i : Nat) : byteAt (b :: s) (i + 1) = byteAt s i := rfl

theorem byteAt_append_right (s t : List Byte) (i : Nat) : byteAt (s ++ t) (s.length + i) = byteAt t i := by
  rw [byteAt, byteAt, List.getD_eq_getElem?_getD, List.getD_eq_getElem?_getD, List.getElem?_append_right (by omega)]
  simp

theorem getElem?_eq_byteAt {s : List Byte} {i : Nat} (h : i < s.length) : s[i]? = some (byteAt s i) := by
  simp [byteAt, List.getD_eq_getElem?_getD, h]

/-! Record headers (R66). -/

@[simp] theorem fastidFlag_header (f p : Bool) (n : BitVec 6) : fastidFlag (tlvHeaderByte f p n) = f := by
  revert f p n; decide +kernel

@[simp] theorem hasphasefreqFlag_header (f p : Bool) (n : BitVec 6) : hasphasefreqFlag (tlvHeaderByte f p n) = p := by
  revert f p n; decide +kernel

@[simp] theorem headerCount_header (f p : Bool) (n : BitVec 6) : headerCount (tlvHeaderByte f p n) = n := by
  revert f p n; decide +kernel

@[simp] theorem header_of_fields (h : Byte) : tlvHeaderByte (fastidFlag h) (hasphasefreqFlag h) (headerCount h) = h := by
  revert h; decide +kernel

theorem tidCount_header (f p : Bool) (n : BitVec 6) : tidCount (tlvHeaderByte f p n) = n.toNat := by
  simp [tidCount]

theorem tidCount_le (h : Byte) : tidCount h ≤ 63 := by
  have := (headerCount h).isLt
  simp only [tidCount]; omega

end Sys2Proof.Laws.Bytes
end

