-- ==== Sys2Proof/Laws/Crc.lean ====
section
/-! SUPPORT. The checksum's small lemmas. -/

namespace Sys2Proof.Laws.Crc

open Sys2Proof.Machine

@[simp] theorem crcFrom_nil (acc : Word) : crcFrom acc [] = acc := rfl

@[simp] theorem crcFrom_cons (acc : Word) (b : Byte) (s : List Byte) :
    crcFrom acc (b :: s) = crcFrom (crcStep acc b) s := rfl

theorem crcFrom_append (acc : Word) (s t : List Byte) : crcFrom acc (s ++ t) = crcFrom (crcFrom acc s) t := by
  simp [crcFrom]

theorem crc16_append (s t : List Byte) : crc16 (s ++ t) = crcFrom (crc16 s) t := crcFrom_append _ _ _

@[simp] theorem crc16_nil : crc16 [] = 0xFFFF#16 := rfl

@[simp] theorem crcShifts_zero (a : Word) : crcShifts 0 a = a := rfl

theorem crcShifts_succ (n : Nat) (a : Word) : crcShifts (n + 1) a = crcShifts n (crcShift a) := rfl

theorem appendCrc_length (body : List Byte) : (appendCrc body).length = body.length + 2 := by
  simp [appendCrc, crcBytes]

end Sys2Proof.Laws.Crc
end

