-- ==== Sys2Proof/Laws/Memory.lean ====
section
/-! SUPPORT. What every operation on `RX_BUF` does: the canonical form is kept, a read after a write to the same place
gives the byte written, and a write leaves every other place alone. -/

namespace Sys2Proof.Laws.Memory

open Sys2Proof.Machine

@[simp] theorem readByte_nil (a : Nat) : readByte [] a = none := rfl

@[simp] theorem readByte_writeByte_same (m : List Host.Cell) (a : Nat) (b : Byte) :
    readByte (writeByte m a b) a = some b := by
  induction m with
  | nil => simp [writeByte, readByte]
  | cons c rest ih =>
    obtain ⟨k, v⟩ := c
    simp only [writeByte]
    split
    · simp [readByte]
    · split
      · simp [readByte]
      · simp only [readByte]
        rw [if_neg (by omega)]
        exact ih

theorem readByte_writeByte_other (m : List Host.Cell) {a x : Nat} (b : Byte) (h : x ≠ a) :
    readByte (writeByte m a b) x = readByte m x := by
  induction m with
  | nil => simp [writeByte, readByte, h.symm]
  | cons c rest ih =>
    obtain ⟨k, v⟩ := c
    simp only [writeByte]
    split
    · simp [readByte, h.symm]
    · split
      · subst_vars
        simp [readByte, h.symm]
      · simp only [readByte, ih]

theorem risingFrom_mono {m : List Host.Cell} {lo lo' : Nat} (h : lo' ≤ lo) (hm : risingFrom lo m = true) :
    risingFrom lo' m = true := by
  cases m with
  | nil => rfl
  | cons c rest =>
    obtain ⟨k, v⟩ := c
    simp only [risingFrom, Bool.and_eq_true, decide_eq_true_eq] at hm ⊢
    exact ⟨⟨by omega, hm.1.2⟩, hm.2⟩

theorem risingFrom_writeByte {m : List Host.Cell} {lo a : Nat} (b : Byte) (hlo : lo ≤ a) (ha : a < Config.bufCap)
    (hm : risingFrom lo m = true) : risingFrom lo (writeByte m a b) = true := by
  induction m generalizing lo with
  | nil => simp [writeByte, risingFrom, hlo, ha]
  | cons c rest ih =>
    obtain ⟨k, v⟩ := c
    simp only [risingFrom, Bool.and_eq_true, decide_eq_true_eq] at hm
    obtain ⟨⟨h1, h2⟩, h3⟩ := hm
    simp only [writeByte]
    split
    · simp only [risingFrom, Bool.and_eq_true, decide_eq_true_eq]
      exact ⟨⟨hlo, ha⟩, ⟨⟨by omega, h2⟩, h3⟩⟩
    · split
      · subst_vars
        simp only [risingFrom, Bool.and_eq_true, decide_eq_true_eq]
        exact ⟨⟨hlo, ha⟩, h3⟩
      · simp only [risingFrom, Bool.and_eq_true, decide_eq_true_eq]
        exact ⟨⟨h1, h2⟩, ih (by omega) h3⟩

/-- A store inside `RX_BUF` keeps the canonical form. -/
theorem wf_writeByte {m : List Host.Cell} {a : Nat} (b : Byte) (ha : a < Config.bufCap) (hm : Memory.wf m = true) :
    Memory.wf (writeByte m a b) = true :=
  risingFrom_writeByte b (Nat.zero_le a) ha hm

/-- A canonical memory lists nothing at or above `BUF_CAP`. -/
theorem readByte_none_of_rising {m : List Host.Cell} {lo a : Nat} (hm : risingFrom lo m = true)
    (ha : a < lo ∨ Config.bufCap ≤ a) : readByte m a = none := by
  induction m generalizing lo with
  | nil => rfl
  | cons c rest ih =>
    obtain ⟨k, v⟩ := c
    simp only [risingFrom, Bool.and_eq_true, decide_eq_true_eq] at hm
    obtain ⟨⟨h1, h2⟩, h3⟩ := hm
    simp only [readByte]
    rw [if_neg (by omega)]
    exact ih h3 (by omega)

/-- Equal memories are equal data: the canonical form is unique. -/
theorem eq_of_readByte {m n : List Host.Cell} {lo lo' : Nat} (hm : risingFrom lo m = true) (hn : risingFrom lo' n = true)
    (h : ∀ a, readByte m a = readByte n a) : m = n := by
  induction m generalizing n lo lo' with
  | nil =>
    cases n with
    | nil => rfl
    | cons c rest => have := h c.1; simp [readByte] at this
  | cons c rest ih =>
    obtain ⟨k, v⟩ := c
    simp only [risingFrom, Bool.and_eq_true, decide_eq_true_eq] at hm
    cases n with
    | nil => have := h k; simp [readByte] at this
    | cons d rest' =>
      obtain ⟨k', v'⟩ := d
      simp only [risingFrom, Bool.and_eq_true, decide_eq_true_eq] at hn
      have hk : k = k' := by
        rcases Nat.lt_trichotomy k k' with hlt | heq | hgt
        · have := h k
          simp only [readByte, if_true] at this
          rw [if_neg (by omega), readByte_none_of_rising hn.2 (.inl (by omega))] at this
          cases this
        · exact heq
        · have := h k'
          simp only [readByte, if_true] at this
          rw [if_neg (by omega), readByte_none_of_rising hm.2 (.inl (by omega))] at this
          cases this
      subst hk
      have hv : v = v' := by have := h k; simpa [readByte] using this
      subst hv
      have : rest = rest' := by
        refine ih hm.2 hn.2 (fun a => ?_)
        by_cases ha : k = a
        · subst ha
          rw [readByte_none_of_rising hm.2 (.inl (by omega)), readByte_none_of_rising hn.2 (.inl (by omega))]
        · have := h a
          simpa [readByte, ha] using this
      rw [this]

/-! Reading a run of bytes. -/

/-- A read of a run succeeds exactly when each of its bytes has been written. -/
theorem readRange_isSome (m : List Host.Cell) (a n : Nat) :
    (readRange m a n).isSome = true ↔ ∀ x, a ≤ x → x < a + n → (readByte m x).isSome = true := by
  induction n generalizing a with
  | zero => simp [readRange]; omega
  | succ n ih =>
    simp only [readRange]
    constructor
    · intro h x hx hx'
      split at h
      · rename_i b bs hb hbs
        by_cases hxa : x = a
        · simp [hxa, hb]
        · exact (ih (a + 1)).1 (by simp [hbs]) x (by omega) (by omega)
      · simp at h
    · intro h
      have h1 := h a (le_refl _) (by omega)
      have h2 := (ih (a + 1)).2 (fun x hx hx' => h x (by omega) (by omega))
      obtain ⟨b, hb⟩ := Option.isSome_iff_exists.1 h1
      obtain ⟨bs, hbs⟩ := Option.isSome_iff_exists.1 h2
      simp [hb, hbs]

/-- What a read of a run returns: as many bytes as asked, each the byte at its address. -/
theorem readRange_eq_some {m : List Host.Cell} {a n : Nat} {bs : List Byte} (h : readRange m a n = some bs) :
    bs.length = n ∧ ∀ i, i < n → readByte m (a + i) = bs[i]? := by
  induction n generalizing a bs with
  | zero => simp [readRange] at h; subst h; simp
  | succ n ih =>
    simp only [readRange] at h
    split at h
    · rename_i b bs' hb hbs
      cases h
      obtain ⟨hl, hi⟩ := ih hbs
      refine ⟨by simp [hl], fun i hi' => ?_⟩
      cases i with
      | zero => simpa using hb
      | succ i =>
        have := hi i (by omega)
        rw [show a + (i + 1) = a + 1 + i by omega, this]
        simp
    · cases h

/-- A run is read one byte longer by reading the next byte. -/
theorem readRange_succ (m : List Host.Cell) (a n : Nat) {bs : List Byte} {b : Byte} (h : readRange m a n = some bs)
    (hb : readByte m (a + n) = some b) : readRange m a (n + 1) = some (bs ++ [b]) := by
  induction n generalizing a bs with
  | zero =>
    simp [readRange] at h
    subst h
    simp only [Nat.add_zero] at hb
    simp [readRange, hb]
  | succ n ih =>
    rw [readRange] at h
    split at h
    · rename_i c cs hc hcs
      cases h
      have := ih (a + 1) hcs (by rw [show a + 1 + n = a + (n + 1) by omega]; exact hb)
      rw [readRange, hc, this]
      rfl
    · cases h

/-- Two memories that agree on a run read the same there. -/
theorem readRange_congr {m n : List Host.Cell} {a k : Nat} (h : ∀ x, a ≤ x → x < a + k → readByte m x = readByte n x) :
    readRange m a k = readRange n a k := by
  induction k generalizing a with
  | zero => rfl
  | succ k ih =>
    simp only [readRange]
    rw [h a (le_refl _) (by omega), ih (fun x hx hx' => h x (by omega) (by omega))]

/-- A store outside a run changes no read of it. -/
theorem readRange_writeByte_other {m : List Host.Cell} {a k x : Nat} (b : Byte) (h : x < a ∨ a + k ≤ x) :
    readRange (writeByte m x b) a k = readRange m a k :=
  readRange_congr (fun _ hy hy' => readByte_writeByte_other m b (by omega))

end Sys2Proof.Laws.Memory
end

