-- ==== Sys2Proof/Laws/State.lean ====
section
/-! SUPPORT. One lemma per field per update of State, so that no later proof unfolds a record update. -/

namespace Sys2Proof.Laws.State

open Sys2Proof.Machine

variable (s : Sys2Proof.Machine.State) (items : List Item) (p : Params) (b : Byte)

@[simp] theorem respond_params : (respond items s).params = s.params := rfl
@[simp] theorem respond_dialect : (respond items s).dialect = s.dialect := rfl
@[simp] theorem respond_crcCheckEn : (respond items s).crcCheckEn = s.crcCheckEn := rfl
@[simp] theorem respond_crcAcc : (respond items s).crcAcc = s.crcAcc := rfl
@[simp] theorem respond_rxState : (respond items s).rxState = s.rxState := rfl
@[simp] theorem respond_rxLen : (respond items s).rxLen = s.rxLen := rfl
@[simp] theorem respond_rxTarget : (respond items s).rxTarget = s.rxTarget := rfl
@[simp] theorem respond_rxBuf : (respond items s).rxBuf = s.rxBuf := rfl
@[simp] theorem respond_input : (respond items s).input = s.input := rfl
@[simp] theorem respond_outcome : (respond items s).outcome = items := rfl
@[simp] theorem respond_respond (other : List Item) : respond items (respond other s) = respond items s := rfl

@[simp] theorem goIdle_params : (goIdle s).params = s.params := rfl
@[simp] theorem goIdle_dialect : (goIdle s).dialect = s.dialect := rfl
@[simp] theorem goIdle_crcCheckEn : (goIdle s).crcCheckEn = s.crcCheckEn := rfl
@[simp] theorem goIdle_crcAcc : (goIdle s).crcAcc = s.crcAcc := rfl
@[simp] theorem goIdle_rxState : (goIdle s).rxState = .idle := rfl
@[simp] theorem goIdle_rxLen : (goIdle s).rxLen = 0#9 := rfl
@[simp] theorem goIdle_rxTarget : (goIdle s).rxTarget = 0#9 := rfl
@[simp] theorem goIdle_rxBuf : (goIdle s).rxBuf = s.rxBuf := rfl
@[simp] theorem goIdle_input : (goIdle s).input = s.input := rfl
@[simp] theorem goIdle_outcome : (goIdle s).outcome = s.outcome := rfl
@[simp] theorem goIdle_goIdle : goIdle (goIdle s) = goIdle s := rfl

@[simp] theorem resetWith_params : (State.resetWith p).params = p := rfl
@[simp] theorem resetWith_dialect : (State.resetWith p).dialect = p.dialectReset := rfl
@[simp] theorem resetWith_crcCheckEn : (State.resetWith p).crcCheckEn = false := rfl
@[simp] theorem resetWith_crcAcc : (State.resetWith p).crcAcc = Config.crcInit := rfl
@[simp] theorem resetWith_rxState : (State.resetWith p).rxState = .idle := rfl
@[simp] theorem resetWith_rxLen : (State.resetWith p).rxLen = 0#9 := rfl
@[simp] theorem resetWith_rxTarget : (State.resetWith p).rxTarget = 0#9 := rfl
@[simp] theorem resetWith_rxBuf : (State.resetWith p).rxBuf = [] := rfl
@[simp] theorem resetWith_input : (State.resetWith p).input = [] := rfl
@[simp] theorem resetWith_outcome : (State.resetWith p).outcome = [] := rfl

@[simp] theorem beginFrame_params : (beginFrame b s).params = s.params := by
  unfold beginFrame; split <;> rfl
@[simp] theorem beginFrame_dialect : (beginFrame b s).dialect = s.dialect := by
  unfold beginFrame; split <;> rfl
@[simp] theorem beginFrame_crcCheckEn : (beginFrame b s).crcCheckEn = s.crcCheckEn := by
  unfold beginFrame; split <;> rfl
@[simp] theorem beginFrame_crcAcc : (beginFrame b s).crcAcc = s.crcAcc := by
  unfold beginFrame; split <;> rfl
@[simp] theorem beginFrame_rxState : (beginFrame b s).rxState = .accumulating := by
  unfold beginFrame; split <;> simp_all
@[simp] theorem beginFrame_rxLen : (beginFrame b s).rxLen = s.rxLen := by
  unfold beginFrame; split <;> rfl
theorem beginFrame_rxTarget_idle (h : s.rxState = .idle) : (beginFrame b s).rxTarget = targetOf s.dialect b := by
  simp [beginFrame, h]
theorem beginFrame_accumulating (h : s.rxState = .accumulating) : beginFrame b s = s := by
  simp [beginFrame, h]
@[simp] theorem beginFrame_rxBuf : (beginFrame b s).rxBuf = s.rxBuf := by
  unfold beginFrame; split <;> rfl
@[simp] theorem beginFrame_input : (beginFrame b s).input = s.input := by
  unfold beginFrame; split <;> rfl
@[simp] theorem beginFrame_outcome : (beginFrame b s).outcome = s.outcome := by
  unfold beginFrame; split <;> rfl

@[simp] theorem withFetchWord_input (nbits w : Nat) :
    (s.withFetchWord nbits w).input = tableTransfer nbits w :: s.input := rfl

end Sys2Proof.Laws.State
end

