-- ==== Sys2Proof/Laws/Rx.lean ====
section
/-! SUPPORT. What receiving a byte can do, said once (spec/42_reassembler.md R116, R117, R119), and receiving many. -/

namespace Sys2Proof.Laws.Rx

open Sys2Proof.Machine
open Sys2Proof.Safety

/-- The state between the store of a byte and the completion test. -/
def afterStore (b : Byte) (s : State) : State :=
  { beginFrame b s with rxBuf := writeByte s.rxBuf s.rxLen.toNat b, rxLen := s.rxLen + 1#9 }

section fields
variable (b : Byte) (s : State)
@[simp] theorem afterStore_params : (afterStore b s).params = s.params := by simp [afterStore]
@[simp] theorem afterStore_dialect : (afterStore b s).dialect = s.dialect := by simp [afterStore]
@[simp] theorem afterStore_crcCheckEn : (afterStore b s).crcCheckEn = s.crcCheckEn := by simp [afterStore]
@[simp] theorem afterStore_crcAcc : (afterStore b s).crcAcc = s.crcAcc := by simp [afterStore]
@[simp] theorem afterStore_rxState : (afterStore b s).rxState = .accumulating := by simp [afterStore]
@[simp] theorem afterStore_rxLen : (afterStore b s).rxLen = s.rxLen + 1#9 := rfl
@[simp] theorem afterStore_rxTarget : (afterStore b s).rxTarget = (beginFrame b s).rxTarget := rfl
@[simp] theorem afterStore_rxBuf : (afterStore b s).rxBuf = writeByte s.rxBuf s.rxLen.toNat b := rfl
@[simp] theorem afterStore_input : (afterStore b s).input = s.input := by simp [afterStore]
@[simp] theorem afterStore_outcome : (afterStore b s).outcome = s.outcome := by simp [afterStore]
end fields

theorem receiveByte_eq (b : Byte) (s : State) :
    receiveByte b s =
      if s.rxLen.toNat < Config.bufCap then completeFrame (afterStore b s) else .error (.rxBufAddress s.rxLen.toNat) := by
  unfold receiveByte memWrite
  by_cases h : s.rxLen.toNat < Config.bufCap <;> simp [h, afterStore]

/-- All a received byte can do when it succeeds: the frame goes on, or it is complete and the unit is `Idle` again. -/
theorem receiveByte_cases {b : Byte} {s t : State} {items : List Item} (h : receiveByte b s = .ok (t, items)) :
    s.rxLen.toNat < Config.bufCap ∧
      ((s.rxLen + 1#9 ≠ (beginFrame b s).rxTarget ∧ t = afterStore b s ∧ items = []) ∨
       (s.rxLen + 1#9 = (beginFrame b s).rxTarget ∧ t = goIdle (afterStore b s) ∧
          ∃ f, readRange (afterStore b s).rxBuf 0 (s.rxLen + 1#9).toNat = some f ∧
            items = [frameItem s.crcCheckEn f])) := by
  rw [receiveByte_eq] at h
  split at h
  · rename_i hlt
    refine ⟨hlt, ?_⟩
    unfold completeFrame at h
    split at h
    · rename_i heq
      refine .inr ⟨heq, ?_⟩
      unfold memRead at h
      split at h
      · rename_i f hf
        simp only [Except.map, terminateFrame, Except.ok.injEq, Prod.mk.injEq] at h
        exact ⟨h.1.symm, f, hf, by rw [← h.2]; simp⟩
      · simp [Except.map] at h
    · rename_i hne
      simp only [Except.ok.injEq, Prod.mk.injEq] at h
      exact .inl ⟨hne, h.1.symm, h.2.symm⟩
  · cases h

/-- What a received byte leaves unchanged (R220), with the one address it stores to (R117). -/
theorem receiveByte_frame {b : Byte} {s t : State} {items : List Item} (h : receiveByte b s = .ok (t, items)) :
    t.params = s.params ∧ t.dialect = s.dialect ∧ t.crcCheckEn = s.crcCheckEn ∧ t.crcAcc = s.crcAcc ∧
      t.input = s.input ∧ t.outcome = s.outcome ∧
      ∀ a, a ≠ s.rxLen.toNat → readByte t.rxBuf a = readByte s.rxBuf a := by
  obtain ⟨-, (⟨-, rfl, -⟩ | ⟨-, rfl, -⟩)⟩ := receiveByte_cases h
  · exact ⟨by simp, by simp, by simp, by simp, by simp, by simp,
      fun a ha => by simpa using Memory.readByte_writeByte_other s.rxBuf b ha⟩
  · exact ⟨by simp, by simp, by simp, by simp, by simp, by simp,
      fun a ha => by simpa using Memory.readByte_writeByte_other s.rxBuf b ha⟩

/-! Under the invariant. -/

theorem targetOf_pos (d : Dialect) (b : Byte) : 1 ≤ (targetOf d b).toNat ∧ (targetOf d b).toNat ≤ 256 := by
  cases d with
  | ls => simp only [targetOf, lsTarget]; constructor <;> bv_omega
  | fx => exact ⟨by rw [show (targetOf .fx b).toNat = 19 from rfl]; omega, by rw [show (targetOf .fx b).toNat = 19 from rfl]; omega⟩

theorem targetOf_ls (b : Byte) : (targetOf .ls b).toNat = b.toNat + 1 := by
  simp only [targetOf, lsTarget]; bv_omega

theorem targetOf_fx (b : Byte) : (targetOf .fx b).toNat = 19 := rfl

/-- Before the completion test of an invariant state: the new length is at most the target. -/
theorem inv_target {s : State} (h : Inv s) (b : Byte) :
    s.rxLen.toNat < 256 ∧ (s.rxLen + 1#9).toNat = s.rxLen.toNat + 1 ∧
      s.rxLen.toNat + 1 ≤ (beginFrame b s).rxTarget.toNat ∧ (beginFrame b s).rxTarget.toNat ≤ 256 := by
  cases hs : s.rxState with
  | idle =>
    have h0 := h.idleLen.1 hs
    have := targetOf_pos s.dialect b
    rw [State.beginFrame_rxTarget_idle s b hs, h0]
    exact ⟨by decide, by decide, by simpa using this.1, this.2⟩
  | accumulating =>
    obtain ⟨h1, h2, h3⟩ := h.accumulating.1 hs
    rw [State.beginFrame_accumulating s b hs]
    simp only [Config.bufCap] at h3
    refine ⟨by omega, ?_, by omega, h3⟩
    bv_omega

/-- The frame a completing byte reads is there to be read. -/
theorem inv_readRange {s : State} (h : Inv s) (b : Byte) :
    ∃ f, readRange (afterStore b s).rxBuf 0 (s.rxLen + 1#9).toNat = some f := by
  refine Option.isSome_iff_exists.1 ((Memory.readRange_isSome _ _ _).2 (fun x _ hx => ?_))
  obtain ⟨-, h1, -, -⟩ := inv_target h b
  rw [afterStore_rxBuf]
  by_cases hx' : x = s.rxLen.toNat
  · simp [hx']
  · rw [Memory.readByte_writeByte_other _ _ hx']
    exact h.written x (by omega)

/-- In an invariant state a received byte always succeeds, and this is what it does (R116). -/
theorem receiveByte_inv {s : State} (h : Inv s) (b : Byte) :
    (s.rxLen + 1#9 ≠ (beginFrame b s).rxTarget ∧ receiveByte b s = .ok (afterStore b s, [])) ∨
    (s.rxLen + 1#9 = (beginFrame b s).rxTarget ∧
      ∃ f, readRange (afterStore b s).rxBuf 0 (s.rxLen + 1#9).toNat = some f ∧
        receiveByte b s = .ok (goIdle (afterStore b s), [frameItem s.crcCheckEn f])) := by
  have h1 : s.rxLen.toNat < Config.bufCap := (inv_target h b).1
  rw [receiveByte_eq, if_pos h1]
  unfold completeFrame
  by_cases heq : s.rxLen + 1#9 = (beginFrame b s).rxTarget
  · obtain ⟨f, hf⟩ := inv_readRange h b
    refine .inr ⟨heq, f, hf, ?_⟩
    rw [if_pos (show (afterStore b s).rxLen = (afterStore b s).rxTarget from heq)]
    have hm : memRead 0 (afterStore b s).rxLen.toNat (afterStore b s) = .ok f := by
      unfold memRead
      rw [show readRange (afterStore b s).rxBuf 0 (afterStore b s).rxLen.toNat = some f from hf]
    rw [hm]
    simp [Except.map, terminateFrame]
  · exact .inl ⟨heq, if_neg (show ¬(afterStore b s).rxLen = (afterStore b s).rxTarget from heq)⟩

/-- The invariant looks at six fields only. -/
theorem inv_congr {s t : State} (h : Inv s) (h1 : t.rxBuf = s.rxBuf) (h2 : t.rxLen = s.rxLen) (h3 : t.rxTarget = s.rxTarget)
    (h4 : t.rxState = s.rxState) (h5 : t.dialect = s.dialect) : Inv t := by
  constructor
  · rw [h1]; exact h.bufWf
  · rw [h1, h2]; exact h.written
  · rw [h4, h2]; exact h.idleLen
  · rw [h2, h3]; exact h.lenTarget
  · rw [h4, h2, h3]; exact h.accumulating
  · rw [h5, h4, h1, h3]; exact h.lsTarget
  · rw [h5, h4, h3]; exact h.fxTarget

/-- An `Idle` and empty unit over a canonical buffer meets the invariant, whatever the rest. -/
theorem inv_of_idle {s : State} (hw : Memory.wf s.rxBuf = true) (h1 : s.rxState = .idle) (h2 : s.rxLen = 0#9)
    (h3 : s.rxTarget = 0#9) : Inv s := by
  constructor <;> simp_all

theorem wf_afterStore {s : State} (h : Inv s) (b : Byte) : Memory.wf (afterStore b s).rxBuf = true :=
  Memory.wf_writeByte b (inv_target h b).1 h.bufWf

/-- A received byte keeps the invariant. -/
theorem receiveByte_keeps_inv {s t : State} {b : Byte} {items : List Item} (h : Inv s)
    (hr : receiveByte b s = .ok (t, items)) : Inv t := by
  obtain ⟨hb, (⟨hne, rfl, -⟩ | ⟨-, rfl, -⟩)⟩ := receiveByte_cases hr
  · obtain ⟨h1, h2, h3, h4⟩ := inv_target h b
    have hlt : s.rxLen.toNat + 1 < (beginFrame b s).rxTarget.toNat := by
      have : (s.rxLen + 1#9).toNat ≠ (beginFrame b s).rxTarget.toNat := fun e => hne (BitVec.eq_of_toNat_eq e)
      omega
    constructor
    · exact wf_afterStore h b
    · intro a ha
      simp only [afterStore_rxLen, h2] at ha
      rw [afterStore_rxBuf]
      by_cases hx : a = s.rxLen.toNat
      · simp [hx]
      · rw [Memory.readByte_writeByte_other _ _ hx]; exact h.written a (by omega)
    · simp only [afterStore_rxState, afterStore_rxLen, reduceCtorEq, false_iff]
      intro e
      rw [e] at h2
      simp at h2
    · simp only [afterStore_rxLen, afterStore_rxTarget]
      constructor
      · intro e; rw [e] at h2; simp at h2
      · intro e; rw [e] at h3; simp at h3
    · simp only [afterStore_rxState, afterStore_rxLen, afterStore_rxTarget, h2, true_iff]
      exact ⟨by omega, hlt, h4⟩
    · intro hd _
      simp only [afterStore_dialect] at hd
      rw [afterStore_rxBuf, afterStore_rxTarget]
      cases hs : s.rxState with
      | idle =>
        refine ⟨b, by rw [h.idleLen.1 hs]; exact Memory.readByte_writeByte_same _ _ _, ?_⟩
        rw [State.beginFrame_rxTarget_idle s b hs, hd, targetOf_ls]
      | accumulating =>
        obtain ⟨c, hc, hc'⟩ := h.lsTarget hd hs
        have := (h.accumulating.1 hs).1
        refine ⟨c, ?_, by rw [State.beginFrame_accumulating s b hs, hc']⟩
        rw [Memory.readByte_writeByte_other _ _ (by omega)]; exact hc
    · intro hd _
      simp only [afterStore_dialect] at hd
      rw [afterStore_rxTarget]
      cases hs : s.rxState with
      | idle => rw [State.beginFrame_rxTarget_idle s b hs, hd, targetOf_fx]; rfl
      | accumulating => rw [State.beginFrame_accumulating s b hs]; exact h.fxTarget hd hs
  · exact inv_of_idle (by simpa using wf_afterStore h b) rfl rfl rfl

/-! Receiving many bytes. -/

@[simp] theorem receiveAll_nil (s : State) : receiveAll [] s = .ok (s, []) := rfl

theorem receiveAll_cons (b : Byte) (bs : List Byte) (s : State) :
    receiveAll (b :: bs) s =
      match receiveByte b s with
      | .error e => .error e
      | .ok (s', items) => (receiveAll bs s').map (fun r => (r.1, items ++ r.2)) := rfl

theorem receiveAll_cons_ok {b : Byte} {bs : List Byte} {s t : State} {items : List Item}
    (h : receiveAll (b :: bs) s = .ok (t, items)) :
    ∃ s' i1 i2, receiveByte b s = .ok (s', i1) ∧ receiveAll bs s' = .ok (t, i2) ∧ items = i1 ++ i2 := by
  rw [receiveAll_cons] at h
  split at h
  · cases h
  · rename_i s' i1 h1
    cases h2 : receiveAll bs s' with
    | error e => rw [h2] at h; cases h
    | ok r =>
      rw [h2] at h
      simp only [Except.map, Except.ok.injEq, Prod.mk.injEq] at h
      obtain ⟨rfl, rfl⟩ := h
      exact ⟨s', i1, r.2, h1, by rw [h2], rfl⟩

/-- In an invariant state any bytes are received, and the invariant is kept. -/
theorem receiveAll_inv {s : State} (h : Inv s) (bs : List Byte) :
    ∃ t items, receiveAll bs s = .ok (t, items) ∧ Inv t := by
  induction bs generalizing s with
  | nil => exact ⟨s, [], rfl, h⟩
  | cons b bs ih =>
    obtain ⟨s', i1, h1⟩ : ∃ s' i1, receiveByte b s = .ok (s', i1) := by
      rcases receiveByte_inv h b with ⟨-, h1⟩ | ⟨-, f, -, h1⟩ <;> exact ⟨_, _, h1⟩
    obtain ⟨t, i2, h2, ht⟩ := ih (receiveByte_keeps_inv h h1)
    exact ⟨t, i1 ++ i2, by rw [receiveAll_cons, h1]; simp [h2, Except.map], ht⟩

/-- What received bytes leave unchanged (R220). -/
theorem receiveAll_frame {bs : List Byte} {s t : State} {items : List Item} (h : receiveAll bs s = .ok (t, items)) :
    t.params = s.params ∧ t.dialect = s.dialect ∧ t.crcCheckEn = s.crcCheckEn ∧ t.crcAcc = s.crcAcc ∧
      t.input = s.input ∧ t.outcome = s.outcome := by
  induction bs generalizing s items with
  | nil => simp only [receiveAll_nil, Except.ok.injEq, Prod.mk.injEq] at h; simp [h.1]
  | cons b bs ih =>
    obtain ⟨s', i1, i2, h1, h2, -⟩ := receiveAll_cons_ok h
    obtain ⟨a1, a2, a3, a4, a5, a6, -⟩ := receiveByte_frame h1
    obtain ⟨b1, b2, b3, b4, b5, b6⟩ := ih h2
    exact ⟨b1.trans a1, b2.trans a2, b3.trans a3, b4.trans a4, b5.trans a5, b6.trans a6⟩

end Sys2Proof.Laws.Rx
end

