-- ==== Sys2Proof/Laws/Ops.lean ====
section
/-! SUPPORT. What each shared operation can do, said once, for the provers to cite in place of unfolding it. -/

namespace Sys2Proof.Laws.Ops

open Sys2Proof.Machine
open Sys2Proof.Safety

/-! The three ways an operation ends (R11, R12). -/

theorem done_next {s t : State} : done s = .next t ↔ t = { s with outcome := [] } := by
  simp [done, respond, eq_comm]

theorem answer_next {v : Value} {s t : State} : answer v s = .next t ↔ t = { s with outcome := [.value v] } := by
  simp [answer, respond, eq_comm]

theorem raise_next {e : Err} {s t : State} : raise e s = .next t ↔ t = { s with outcome := [.err e] } := by
  simp [raise, respond, eq_comm]

theorem deliver_next {r : Except Fault (State × List Item)} {t : State} :
    deliver r = .next t ↔ ∃ s items, r = .ok (s, items) ∧ t = { s with outcome := items } := by
  cases r with
  | error e => simp [deliver]
  | ok p => obtain ⟨s, items⟩ := p; simp [deliver, respond, eq_comm]

/-! `MemRead` and `MemWrite` (R11). -/

theorem memWrite_ok {a : Nat} {v : Byte} {s t : State} :
    memWrite a v s = .ok t ↔ a < Config.bufCap ∧ t = { s with rxBuf := writeByte s.rxBuf a v } := by
  unfold memWrite; split <;> simp_all [eq_comm]

theorem memRead_ok {a n : Nat} {s : State} {bs : List Byte} :
    memRead a n s = .ok bs ↔ readRange s.rxBuf a n = some bs := by
  unfold memRead; split <;> simp_all

/-! A complete frame's item (R119). -/

theorem frameItem_cases (en : Bool) (f : List Byte) :
    (en = true ∧ crcOk f = false ∧ frameItem en f = .err (.checksumMismatch f)) ∨
    (¬(en = true ∧ crcOk f = false) ∧ frameItem en f = .frame f (crcOk f)) := by
  cases en <;> cases h : crcOk f <;> simp [frameItem, h]

theorem frameItem_eq (en : Bool) (f : List Byte) :
    frameItem en f = if en = true ∧ crcOk f = false then .err (.checksumMismatch f) else .frame f (crcOk f) := by
  rcases frameItem_cases en f with ⟨h1, h2, h⟩ | ⟨h1, h⟩
  · rw [if_pos ⟨h1, h2⟩, h]
  · rw [if_neg h1, h]

/-! Receiving a concatenation (R120). -/

theorem receiveAll_append (xs ys : List Byte) (s : State) :
    receiveAll (xs ++ ys) s =
      match receiveAll xs s with
      | .error e => .error e
      | .ok (t, items) => (receiveAll ys t).map (fun r => (r.1, items ++ r.2)) := by
  induction xs generalizing s with
  | nil => cases h : receiveAll ys s <;> simp [h, Except.map]
  | cons b xs ih =>
    rw [List.cons_append, Rx.receiveAll_cons, Rx.receiveAll_cons]
    cases receiveByte b s with
    | error e => rfl
    | ok p =>
      obtain ⟨s', i1⟩ := p
      simp only [ih]
      cases receiveAll xs s' with
      | error e => rfl
      | ok q => cases h : receiveAll ys q.1 <;> simp [h, Except.map]

/-- Every item of received bytes is a completed frame's (R119, R209). -/
theorem receiveAll_items {bs : List Byte} {s t : State} {items : List Item} (h : receiveAll bs s = .ok (t, items)) :
    ∀ x ∈ items, ∃ f, x = frameItem s.crcCheckEn f := by
  induction bs generalizing s items with
  | nil => simp only [Rx.receiveAll_nil, Except.ok.injEq, Prod.mk.injEq] at h; simp [← h.2]
  | cons b bs ih =>
    obtain ⟨s', i1, i2, h1, h2, rfl⟩ := Rx.receiveAll_cons_ok h
    have he := (Rx.receiveByte_frame h1).2.2.1
    intro x hx
    rcases List.mem_append.1 hx with hx | hx
    · obtain ⟨-, ⟨-, -, rfl⟩ | ⟨-, -, f, -, rfl⟩⟩ := Rx.receiveByte_cases h1
      · simp at hx
      · exact ⟨f, by simpa using hx⟩
    · exact he ▸ ih h2 x hx

/-! The checksum test and the frame's fields (R135, R136). -/

theorem crcOk_append (body : List Byte) (lo hi : Byte) :
    crcOk (body ++ [lo, hi]) = decide (crc16 body = le16 lo hi) := by
  have h0 := Bytes.byteAt_append_right body [lo, hi] 0
  have h1 := Bytes.byteAt_append_right body [lo, hi] 1
  simp only [Nat.add_zero, Bytes.byteAt_cons_zero, Bytes.byteAt_cons_succ] at h0 h1
  unfold crcOk
  rw [if_pos (by simp), Bytes.slice_zero]
  simp only [List.length_append, List.length_cons, List.length_nil]
  rw [show body.length + (0 + 1 + 1) - 2 = body.length by omega,
    show body.length + (0 + 1 + 1) - 1 = body.length + 1 by omega, h0, h1, List.take_left]
  rfl

theorem crcOk_appendCrc (body : List Byte) : crcOk (appendCrc body) = true := by
  simp [appendCrc, crcBytes, crcOk_append]

theorem crcOk_short {f : List Byte} (h : f.length < 2) : crcOk f = false := by
  simp [crcOk, Nat.not_le.2 h]

theorem parseFrame_cases (f : List Byte) :
    (5 ≤ f.length ∧ (byteAt f 0).toNat = f.length - 1 ∧ parseFrame f = .ok (frameFields f)) ∨
    ((f.length < 5 ∨ (byteAt f 0).toNat ≠ f.length - 1) ∧ parseFrame f = .error (.malformedFrame f.length)) := by
  unfold parseFrame parseable
  simp only [Config.lsMinFrame]
  by_cases h1 : 5 ≤ f.length
  · by_cases h2 : (byteAt f 0).toNat = f.length - 1
    · exact .inl ⟨h1, h2, by simp [h1, h2]⟩
    · exact .inr ⟨.inr h2, by simp [h2]⟩
  · exact .inr ⟨.inl (by omega), by simp [h1]⟩

theorem lengthByte_toNat {n : Nat} (h : n ≤ 251) : (lengthByte n).toNat = 4 + n := by
  simp [lengthByte, Config.lsOverhead]; omega

end Sys2Proof.Laws.Ops
end

