-- ==== Sys2Proof/Laws/PerInstr.lean ====
section
/-! SUPPORT. Statements for all instructions, one lemma per constructor. `EncodedSize`: how many bytes an instruction
has (spec/30_encoding.md R69, R71; the wire formats R61 to R67). -/

namespace Sys2Proof.Laws.EncodedSize

open Sys2Proof.Machine

/-- The size R71 gives: 1, 2, `3 + cnt` or `4 + n` bytes for an operation; the wire formats' own sizes. -/
def sizeOf : Instr → Nat
  | .crcInit | .crcRd | .rxEos | .rxFlush | .rxStat | .cfgRd | .sysReset | .reserved _ => 1
  | .crcUpd _ | .txBuildFx _ | .rxByte _ | .fpStatus _ | .cfgWr _ => 2
  | .crcBlk s | .rxChunk s | .fpParse s | .fpCheck s | .tdTlv s | .tdFix s => 3 + s.length
  | .txBuild _ _ p => 4 + p.length
  | .wireLs _ _ p _ _ => 5 + p.length
  | .wireFxCmd _ => 9
  | .wireFxIn _ _ _ _ _ _ _ _ _ _ => 19
  | .wireTlvHdr _ _ _ => 1
  | .wireTlvRec _ _ tid _ => 2 + tid.length
  | .statusSuccess | .statusFinish | .statusOverTime | .statusExtend => 1
  | .statusOverNumber | .statusAerialFault | .statusParamError | .statusUnrecognized _ => 1

/-- A well-formed instruction has the size its format gives it. -/
def Statement (i : Instr) : Prop := wellFormed i = true → (encode i).bytes.length = sizeOf i

theorem crcInit : Statement .crcInit := fun _ => rfl
theorem crcUpd (b : Byte) : Statement (.crcUpd b) := fun _ => rfl
theorem crcRd : Statement .crcRd := fun _ => rfl
theorem crcBlk (s : List Byte) : Statement (.crcBlk s) := fun _ => by
  simp [encode, encodeBytes, encodeSeq, sizeOf]; omega
theorem txBuild (adr cmd : Byte) (p : List Byte) : Statement (.txBuild adr cmd p) := fun _ => by
  simp [encode, encodeBytes, encodeBuild, sizeOf]; omega
theorem txBuildFx (m : Byte) : Statement (.txBuildFx m) := fun _ => rfl
theorem rxByte (b : Byte) : Statement (.rxByte b) := fun _ => rfl
theorem rxChunk (s : List Byte) : Statement (.rxChunk s) := fun _ => by
  simp [encode, encodeBytes, encodeSeq, sizeOf]; omega
theorem rxEos : Statement .rxEos := fun _ => rfl
theorem rxFlush : Statement .rxFlush := fun _ => rfl
theorem rxStat : Statement .rxStat := fun _ => rfl
theorem fpParse (f : List Byte) : Statement (.fpParse f) := fun _ => by
  simp [encode, encodeBytes, encodeSeq, sizeOf]; omega
theorem fpCheck (f : List Byte) : Statement (.fpCheck f) := fun _ => by
  simp [encode, encodeBytes, encodeSeq, sizeOf]; omega
theorem fpStatus (b : Byte) : Statement (.fpStatus b) := fun _ => rfl
theorem tdTlv (s : List Byte) : Statement (.tdTlv s) := fun _ => by
  simp [encode, encodeBytes, encodeSeq, sizeOf]; omega
theorem tdFix (f : List Byte) : Statement (.tdFix f) := fun _ => by
  simp [encode, encodeBytes, encodeSeq, sizeOf]; omega
theorem cfgWr (v : Byte) : Statement (.cfgWr v) := fun _ => rfl
theorem cfgRd : Statement .cfgRd := fun _ => rfl
theorem sysReset : Statement .sysReset := fun _ => rfl
theorem reserved (op : Byte) : Statement (.reserved op) := fun _ => rfl
theorem wireLs (adr cs : Byte) (p : List Byte) (lo hi : Byte) : Statement (.wireLs adr cs p lo hi) := fun _ => by
  simp [encode, encodeBytes, lsFrameWith, lsBody, sizeOf]; omega
theorem wireFxCmd (m : Byte) : Statement (.wireFxCmd m) := fun _ => rfl
theorem wireFxIn (b0 b1 b2 b3 ant b5 rssi : Byte) (tid : List Byte) (lo hi : Byte) :
    Statement (.wireFxIn b0 b1 b2 b3 ant b5 rssi tid lo hi) := fun h => by
  have : tid.length = 10 := by simpa [wellFormed] using h
  simp [encode, encodeBytes, fxInBytes, sizeOf, this]
theorem wireTlvHdr (f p : Bool) (n : BitVec 6) : Statement (.wireTlvHdr f p n) := fun _ => rfl
theorem wireTlvRec (f p : Bool) (tid : List Byte) (rssi : Byte) : Statement (.wireTlvRec f p tid rssi) := fun _ => by
  simp [encode, encodeBytes, tlvRecordBytes, sizeOf]; omega
theorem statusSuccess : Statement .statusSuccess := fun _ => rfl
theorem statusFinish : Statement .statusFinish := fun _ => rfl
theorem statusOverTime : Statement .statusOverTime := fun _ => rfl
theorem statusExtend : Statement .statusExtend := fun _ => rfl
theorem statusOverNumber : Statement .statusOverNumber := fun _ => rfl
theorem statusAerialFault : Statement .statusAerialFault := fun _ => rfl
theorem statusParamError : Statement .statusParamError := fun _ => rfl
theorem statusUnrecognized (b : Byte) : Statement (.statusUnrecognized b) := fun _ => rfl

end Sys2Proof.Laws.EncodedSize
end

