-- ==== Sys2Proof/Laws/Session.lean ====
section
/-! SUPPORT. What the host's shared operations do: issuing operations to the block, and the conditions of a session. -/

namespace Sys2Proof.Laws.Session

open Sys2Proof.Machine

@[simp] theorem runOps_nil (s : Sys2Proof.Machine.State) : runOps [] s = .next (s, []) := rfl

/-- One operation that completes: its state and its outcome list. -/
theorem runOps_one {i : Instr} {s t : Sys2Proof.Machine.State} (h : exec i s = .next t) :
    runOps [i] s = .next (t, t.outcome) := by
  simp [runOps, h]

/-- Issuing one operation that completes: the session reacts to its outcome list. -/
theorem issue_one {i : Instr} {l : Link} {t : Sys2Proof.Machine.State} (h : exec i l.block = .next t)
    (react : List Item → Session → Session) :
    l.issue [i] react = .next { session := react t.outcome l.session, block := t } := by
  simp [Link.issue, runOps_one h]

/-- Building the command completes in every state, and changes nothing but the outcome (R106, R107). -/
theorem buildOp_completes (c : ScanCommand) (s : Sys2Proof.Machine.State) :
    ∃ item, exec (buildOp c) s = .next (respond [item] s) := by
  cases c with
  | ls adr cmd p =>
    simp only [buildOp, exec, execTxBuild]
    split <;> exact ⟨_, rfl⟩
  | fx m => exact ⟨_, rfl⟩

/-! The capabilities of a command (R176). -/

@[simp] theorem capabilityOf_buildCommand (p : Params) (c : ScanCommand) : (capabilityOf p c).buildCommand = buildOp c := by
  cases c <;> rfl

/-- The frame length a session counts on is the target the reassembler sets in the session's dialect (R118). -/
@[simp] theorem capabilityOf_frameLength (p : Params) (c : ScanCommand) :
    (capabilityOf p c).frameLength = targetOf (commandDialect c) := by
  cases c <;> rfl

theorem lsInterpretStatus_ok {f : List Byte} {g : FrameFields} (h : parseFrame f = .ok g) :
    lsInterpretStatus f = .ok (g.status, statusName g.status) := by
  simp [lsInterpretStatus, h, Except.map]

theorem lsParseTagPayload_ok {f : List Byte} {g : FrameFields} (h : parseFrame f = .ok g) :
    lsParseTagPayload f = decodeTlv g.payload := by
  simp [lsParseTagPayload, h, Except.bind]

/-- A 19-byte frame gives a session of the fixed-length dialect its one record. -/
theorem fxParseTagPayload_ok {p : Params} {f : List Byte} {r : TagRecord} (h : decodeFix p f = .ok r) :
    fxParseTagPayload p f = .ok [r] := by
  simp [fxParseTagPayload, h, Except.map]

theorem startScan_eq (l : Link) :
    l.startScan = l.issue [buildOp l.session.command] (fun items x => x.start.onBuilt items) := by
  simp [Link.startScan, Link.capability]

/-! What a frame does to a session that reads a status from it (R178), one lemma per kind of class. -/

theorem interpretFrame_finish {c : Capability} {f : List Byte} {code : Byte} {n : StatusName} (x : Session)
    (h : c.interpretStatus f = .ok (code, n)) (hn : statusClass n = .terminalOk) : x.interpretFrame c f = x.finish f := by
  simp [Session.interpretFrame, h, hn]

theorem interpretFrame_extend {c : Capability} {f : List Byte} {code : Byte} {n : StatusName} (x : Session)
    (h : c.interpretStatus f = .ok (code, n)) (hn : statusClass n = .continuation) : x.interpretFrame c f = x.extend c f := by
  simp [Session.interpretFrame, h, hn]

/-- A session that awaits no frame takes no item (log 32). -/
theorem onItem_of_not_awaiting {x : Session} (c : Capability) (i : Item) (h : x.phase ≠ .awaitingFrame) :
    x.onItem c i = x := by
  unfold Session.onItem; split <;> simp_all

theorem inTransport_iff {x : Session} : x.inTransport = true ↔ x.phase = .sending ∨ x.phase = .awaitingFrame := by
  simp [Session.inTransport]

theorem pollsAgain_iff {x : Session} :
    x.pollsAgain = true ↔ x.polling = true ∧ x.phase = .terminalSuccess ∧ x.cancelled = false := by
  simp [Session.pollsAgain, and_assoc]

/-- The answer of a build operation leaves the batches of an attempt alone, or ends the attempt. -/
theorem onBuilt_batches {x : Session} (items : List Item) (h : x.batches = []) : (x.onBuilt items).batches = [] := by
  unfold Session.onBuilt; split <;> simp [Session.fail, h]

end Sys2Proof.Laws.Session
end

