-- ==== Sys2Proof/Laws/Td.lean ====
section
/-! SUPPORT. The loop of TD.TLV pass by pass (spec/44_tag_decode.md R152, R153), as a function of what is left of the
slice. -/

namespace Sys2Proof.Laws.Td

open Sys2Proof.Machine

/-- The loop over what is left of the slice: `pos` bytes and `recs` records have gone before. -/
def tlvFrom : Nat → List Byte → Nat → List TagRecord → Except Err (List TagRecord)
  | 0, _, _, recs => .ok recs
  | _ + 1, [], _, recs => .ok recs
  | fuel + 1, h :: rest, pos, recs =>
    if rest.length < tidCount h + 1 then .error (.malformedPayload pos (tidCount h) recs.length)
    else
      tlvFrom fuel (rest.drop (tidCount h + 1)) (pos + 2 + tidCount h)
        (recs ++ [{ tid := rest.take (tidCount h), rssi := byteAt rest (tidCount h), antenna := none,
                    fastid := fastidFlag h, hasphasefreq := hasphasefreqFlag h }])

/-- The record at the cursor, in terms of what is left. -/
theorem tlvRecordAt_append (pre : List Byte) (h : Byte) (rest : List Byte) :
    tlvRecordAt (pre ++ h :: rest) pre.length =
      { tid := rest.take (tidCount h), rssi := byteAt rest (tidCount h), antenna := none,
        fastid := fastidFlag h, hasphasefreq := hasphasefreqFlag h } := by
  have h0 := Bytes.byteAt_append_right pre (h :: rest) 0
  have h1 := Bytes.byteAt_append_right pre (h :: rest) (tidCount h + 1)
  simp only [Nat.add_zero, Bytes.byteAt_cons_zero, Bytes.byteAt_cons_succ] at h0 h1
  have h2 : slice (pre ++ h :: rest) (pre.length + 1) (pre.length + 1 + tidCount h) = rest.take (tidCount h) := by
    have e : pre.length + 1 + tidCount h = pre.length + (tidCount h + 1) := by omega
    rw [slice, e, List.take_length_add_append, List.drop_length_add_append]
    rfl
  unfold tlvRecordAt
  rw [h0, h2, show pre.length + 1 + tidCount h = pre.length + (tidCount h + 1) by omega, h1]

theorem tlvLoop_eq (fuel : Nat) (pre bs : List Byte) (recs : List TagRecord) :
    tlvLoop fuel (pre ++ bs) pre.length recs = tlvFrom fuel bs pre.length recs := by
  induction fuel generalizing pre bs recs with
  | zero => rfl
  | succ fuel ih =>
    cases bs with
    | nil => simp [tlvLoop, tlvFrom]
    | cons h rest =>
      have h0 := Bytes.byteAt_append_right pre (h :: rest) 0
      simp only [Nat.add_zero, Bytes.byteAt_cons_zero] at h0
      simp only [tlvLoop, tlvFrom, h0]
      rw [if_pos (by simp), tlvRecordAt_append]
      by_cases hb : rest.length < tidCount h + 1
      · rw [if_pos hb, if_pos (by simp only [List.length_append, List.length_cons]; omega)]
      · rw [if_neg hb, if_neg (by simp only [List.length_append, List.length_cons]; omega)]
        have e : pre ++ h :: rest = (pre ++ h :: rest.take (tidCount h + 1)) ++ rest.drop (tidCount h + 1) := by
          simp
        have el : (pre ++ h :: rest.take (tidCount h + 1)).length = pre.length + 2 + tidCount h := by
          simp only [List.length_append, List.length_cons, List.length_take]; omega
        have := ih (pre ++ h :: rest.take (tidCount h + 1)) (rest.drop (tidCount h + 1))
          (recs ++ [{ tid := rest.take (tidCount h), rssi := byteAt rest (tidCount h), antenna := none,
                      fastid := fastidFlag h, hasphasefreq := hasphasefreqFlag h }])
        rw [el, ← e] at this
        exact this

theorem decodeTlv_eq (bs : List Byte) : decodeTlv bs = tlvFrom bs.length bs 0 [] := tlvLoop_eq _ [] bs []

/-- More passes than bytes change nothing: a pass that does not raise takes at least two bytes (R153). -/
theorem tlvFrom_fuel {fuel fuel' : Nat} {bs : List Byte} (pos : Nat) (recs : List TagRecord) (h : bs.length ≤ fuel)
    (h' : bs.length ≤ fuel') : tlvFrom fuel bs pos recs = tlvFrom fuel' bs pos recs := by
  induction fuel generalizing fuel' bs pos recs with
  | zero =>
    have : bs = [] := List.eq_nil_of_length_eq_zero (by omega)
    subst this
    cases fuel' <;> rfl
  | succ fuel ih =>
    cases bs with
    | nil => cases fuel' <;> rfl
    | cons b rest =>
      simp only [List.length_cons] at h h'
      cases fuel' with
      | zero => omega
      | succ fuel' =>
        simp only [tlvFrom]
        split
        · rfl
        · exact ih _ _ (by simp only [List.length_drop]; omega) (by simp only [List.length_drop]; omega)

/-- One record in front of the rest (R152): the pass that takes it. -/
theorem tlvFrom_record {fuel : Nat} (f p : Bool) (tid : List Byte) (rssi : Byte) (rest : List Byte) (pos : Nat)
    (recs : List TagRecord) (h : tid.length ≤ 63) (hf : (tlvRecordBytes f p tid rssi ++ rest).length ≤ fuel) :
    tlvFrom fuel (tlvRecordBytes f p tid rssi ++ rest) pos recs =
      tlvFrom rest.length rest (pos + 2 + tid.length)
        (recs ++ [{ tid := tid, rssi := rssi, antenna := none, fastid := f, hasphasefreq := p }]) := by
  have hn : tidCount (tlvHeaderByte f p (BitVec.ofNat 6 tid.length)) = tid.length := by
    rw [Bytes.tidCount_header]; simp; omega
  simp only [tlvRecordBytes, List.cons_append, List.append_assoc, List.length_cons, List.length_append,
    List.length_nil] at hf ⊢
  obtain ⟨fuel, rfl⟩ : ∃ k, fuel = k + 1 := ⟨fuel - 1, by omega⟩
  have h0 := Bytes.byteAt_append_right tid (rssi :: rest) 0
  simp only [Nat.add_zero, Bytes.byteAt_cons_zero] at h0
  simp only [tlvFrom, hn, List.nil_append]
  rw [if_neg (by simp), h0, List.take_left, List.drop_length_add_append]
  simp only [List.drop_succ_cons, List.drop_zero, Bytes.fastidFlag_header, Bytes.hasphasefreqFlag_header]
  exact tlvFrom_fuel _ _ (by omega) (Nat.le_refl _)

/-- A header whose record does not fit (R152): the pass that raises. -/
theorem tlvFrom_bad {fuel : Nat} (h : Byte) (rest : List Byte) (pos : Nat) (recs : List TagRecord)
    (hb : (h :: rest).length < 2 + tidCount h) (hf : (h :: rest).length ≤ fuel) :
    tlvFrom fuel (h :: rest) pos recs = .error (.malformedPayload pos (tidCount h) recs.length) := by
  simp only [List.length_cons] at hb hf
  obtain ⟨fuel, rfl⟩ : ∃ k, fuel = k + 1 := ⟨fuel - 1, by omega⟩
  simp only [tlvFrom]
  rw [if_pos (by omega)]

end Sys2Proof.Laws.Td
end

