-- ==== Sys2Proof/Machine/Trace.lean ====
section
/-! DEFINITION. The operation-trace text of spec/30_encoding.md R76. It writes; nothing of the machine reads it. -/

namespace Sys2Proof.Machine

/-- A byte: two hex digits without prefix. -/
def byteText (b : Byte) : String := String.ofList (hexPair hexDigitsUpper b)

/-- A 16-bit value: four hex digits, high byte first. -/
def wordText (w : Word) : String := byteText (hi8 w) ++ byteText (lo8 w)

/-- A byte sequence: hex bytes separated by spaces inside square brackets. -/
def seqText (s : List Byte) : String := "[" ++ String.intercalate " " (s.map byteText) ++ "]"

/-- A bit. -/
def bitText (b : Bool) : String := if b then "1" else "0"

/-- Braces, which the fields and records of R76 stand in. -/
def braced (t : String) : String := String.ofList [Char.ofNat 123] ++ t ++ String.ofList [Char.ofNat 125]

/-- The mnemonic in spec/opcode_table.json. -/
def mnemonic : Instr → String
  | .crcInit => "CRC.INIT"
  | .crcUpd _ => "CRC.UPD"
  | .crcRd => "CRC.RD"
  | .crcBlk _ => "CRC.BLK"
  | .txBuild _ _ _ => "TX.BUILD"
  | .txBuildFx _ => "TX.BUILDFX"
  | .rxByte _ => "RX.BYTE"
  | .rxChunk _ => "RX.CHUNK"
  | .rxEos => "RX.EOS"
  | .rxFlush => "RX.FLUSH"
  | .rxStat => "RX.STAT"
  | .fpParse _ => "FP.PARSE"
  | .fpCheck _ => "FP.CHECK"
  | .fpStatus _ => "FP.STATUS"
  | .tdTlv _ => "TD.TLV"
  | .tdFix _ => "TD.FIX"
  | .cfgWr _ => "CFG.WR"
  | .cfgRd => "CFG.RD"
  | .sysReset => "SYS.RESET"
  | .reserved _ => "(reserved)"
  | .wireLs _ _ _ _ _ => "WIRE-LS"
  | .wireFxCmd _ => "WIRE-FXCMD"
  | .wireFxIn _ _ _ _ _ _ _ _ _ _ => "WIRE-FXIN"
  | .wireTlvHdr _ _ _ => "WIRE-TLVHDR"
  | .wireTlvRec _ _ _ _ => "WIRE-TLVREC"
  | .statusSuccess => "STATUS.success"
  | .statusFinish => "STATUS.finish"
  | .statusOverTime => "STATUS.overTime"
  | .statusExtend => "STATUS.extend"
  | .statusOverNumber => "STATUS.overNumber"
  | .statusAerialFault => "STATUS.aerialFault"
  | .statusParamError => "STATUS.paramError"
  | .statusUnrecognized _ => "STATUS.unrecognized"

/-- The operands after the mnemonic, separated by commas. A row R76 gives no form for shows its bytes. -/
def operandText (i : Instr) : List String :=
  match i with
  | .crcInit | .crcRd | .rxEos | .rxFlush | .rxStat | .cfgRd | .sysReset => []
  | .crcUpd b | .txBuildFx b | .rxByte b | .fpStatus b | .cfgWr b => [byteText b]
  | .crcBlk s | .rxChunk s | .fpParse s | .fpCheck s | .tdTlv s | .tdFix s => [seqText s]
  | .txBuild adr cmd p => [byteText adr, byteText cmd, seqText p]
  | .reserved _ | .wireLs _ _ _ _ _ | .wireFxCmd _ | .wireFxIn _ _ _ _ _ _ _ _ _ _ => [seqText (encodeBytes i)]
  | .wireTlvHdr _ _ _ | .wireTlvRec _ _ _ _ | .statusUnrecognized _ => [seqText (encodeBytes i)]
  | .statusSuccess | .statusFinish | .statusOverTime | .statusExtend => [seqText (encodeBytes i)]
  | .statusOverNumber | .statusAerialFault | .statusParamError => [seqText (encodeBytes i)]

/-- One line: an operation. -/
def opText (i : Instr) : String :=
  match operandText i with
  | [] => mnemonic i
  | ops => mnemonic i ++ " " ++ String.intercalate ", " ops

/-- `Idle` or `Accumulating`. -/
def rxStateText : RxState → String
  | .idle => "Idle"
  | .accumulating => "Accumulating"

/-- A status name. -/
def statusNameText : StatusName → String
  | .success => "success"
  | .finish => "finish"
  | .overTime => "overTime"
  | .extend => "extend"
  | .overNumber => "overNumber"
  | .aerialFault => "aerialFault"
  | .paramError => "paramError"
  | .unrecognized b => "unrecognized(" ++ byteText b ++ ")"

/-- A status class. -/
def statusClassText : StatusClass → String
  | .terminalOk => "TerminalOk"
  | .continuation => "Continuation"
  | .terminalSilent => "TerminalSilent"
  | .protocolStatusError => "ProtocolStatusError"
  | .unrecognizedStatus => "UnrecognizedStatus"

/-- A record; the antenna is shown only when present. -/
def recordText (r : TagRecord) : String :=
  braced ("tid: " ++ seqText r.tid ++ ", rssi: " ++ byteText r.rssi ++
    (match r.antenna with
     | some a => ", antenna: " ++ byteText a
     | none => "") ++
    ", fastid: " ++ bitText r.fastid ++ ", hasphasefreq: " ++ bitText r.hasphasefreq)

/-- Parsed fields. -/
def fieldsText (f : FrameFields) : String :=
  braced ("length: " ++ byteText f.length ++ ", address: " ++ byteText f.address ++ ", status: " ++ byteText f.status ++
    ", payload: " ++ seqText f.payload ++ ", crc: " ++ wordText f.crc ++ ", crc_ok: " ++ bitText f.crcOk)

/-- What stands inside `Value(...)`. -/
def valueText : Value → String
  | .u16 v => wordText v
  | .u8 v => byteText v
  | .frameBytes f => seqText f
  | .rxStat st len target => rxStateText st ++ ", " ++ toString len.toNat ++ ", " ++ toString target.toNat
  | .fields f => fieldsText f
  | .crcOk ok => bitText ok
  | .status n c => statusNameText n ++ ", " ++ statusClassText c
  | .records rs => "[" ++ String.intercalate ", " (rs.map recordText) ++ "]"
  | .record r => recordText r
  | .tlvHeader h =>
    braced ("fastid: " ++ bitText h.fastid ++ ", hasphasefreq: " ++ bitText h.hasphasefreq ++ ", N: " ++ toString h.n.toNat)

/-- What stands inside `Err(...)`. -/
def errText : Err → String
  | .transportClosed k => "TransportClosed, " ++ toString k.toNat
  | .malformedPayload cur n count =>
    "MalformedPayload, cur=" ++ toString cur ++ ", N=" ++ toString n ++ ", count=" ++ toString count
  | .checksumMismatch f => "ChecksumMismatch, " ++ seqText f
  | .malformedFrame len => "MalformedFrame, " ++ toString len
  | .payloadTooLong n => "PayloadTooLong, " ++ toString n
  | .busy len => "Busy, " ++ toString len.toNat
  | .illegalOp op => "IllegalOp, " ++ byteText op

/-- One outcome item. -/
def itemText : Item → String
  | .value v => "Value(" ++ valueText v ++ ")"
  | .frame f ok => "Frame(" ++ seqText f ++ ", crc_ok=" ++ bitText ok ++ ")"
  | .err e => "Err(" ++ errText e ++ ")"

/-- An outcome list after `=>`: `-` when empty. -/
def outcomeText (items : List Item) : String :=
  match items with
  | [] => "-"
  | _ => String.intercalate ", " (items.map itemText)

end Sys2Proof.Machine
end

