-- ==== Sys2Proof/Tests/Slice0.lean ====
section
/-! SUPPORT. The model's own tests: ill-formed instructions refused, decodings of words written out from the spec, the
spec's vectors on single steps, and a witness for every statement with hypotheses. -/

namespace Sys2Proof.Tests

set_option Elab.async false

open Sys2Proof
open Sys2Proof.Machine
open Sys2Proof.Safety

/-! WellFormed refuses an ill-formed term for each of its checks. -/

theorem test_wf_seq_too_long {s : List Byte} (h : s.length = 65536) : seqFits s = false := by
  simp [seqFits, h]
theorem test_wf_crcBlk_too_long : wellFormed (.crcBlk (List.replicate 65536 0x00#8)) = false :=
  test_wf_seq_too_long List.length_replicate
theorem test_wf_rxChunk_too_long : wellFormed (.rxChunk (List.replicate 65536 0x00#8)) = false :=
  test_wf_seq_too_long List.length_replicate
theorem test_wf_fpParse_too_long : wellFormed (.fpParse (List.replicate 65536 0x00#8)) = false :=
  test_wf_seq_too_long List.length_replicate
theorem test_wf_fpCheck_too_long : wellFormed (.fpCheck (List.replicate 65536 0x00#8)) = false :=
  test_wf_seq_too_long List.length_replicate
theorem test_wf_tdTlv_too_long : wellFormed (.tdTlv (List.replicate 65536 0x00#8)) = false :=
  test_wf_seq_too_long List.length_replicate
theorem test_wf_tdFix_too_long : wellFormed (.tdFix (List.replicate 65536 0x00#8)) = false :=
  test_wf_seq_too_long List.length_replicate
theorem test_wf_seq_longest : wellFormed (.crcBlk (List.replicate 65535 0x00#8)) = true := by
  decide +kernel
theorem test_wf_txBuild_256 : wellFormed (.txBuild 0x00#8 0x01#8 (List.replicate 256 0x00#8)) = false := by
  decide +kernel
theorem test_wf_reserved_assigned : wellFormed (.reserved 0x5F#8) = false := by decide
theorem test_wf_wireLs_252 :
    wellFormed (.wireLs 0x00#8 0x01#8 (List.replicate 252 0x00#8) 0x00#8 0x00#8) = false := by
  decide +kernel
theorem test_wf_wireFxIn_short_tid :
    wellFormed (.wireFxIn 0 0 0 0 0 0 0 (List.replicate 9 0x00#8) 0 0) = false := by decide
theorem test_wf_wireTlvRec_64 : wellFormed (.wireTlvRec false false (List.replicate 64 0x00#8) 0) = false := by decide
theorem test_wf_status_known : wellFormed (.statusUnrecognized 0xF8#8) = false := by decide

/-! Every constructor's decoding, from bytes written out from R69 and R72 (operations) and R61 to R67 (wire rows). -/

/-- A transfer of an operation string. -/
abbrev op (bs : List Byte) : Transfer := { chan := .op, bytes := bs }

theorem test_decode_crcInit : decode (op [0b00000001#8]) = .instr .crcInit [] := by decide
theorem test_decode_crcUpd : decode (op [0b00000010#8, 0x05#8]) = .instr (.crcUpd 0x05#8) [] := by decide
theorem test_decode_crcRd : decode (op [0b00000011#8]) = .instr .crcRd [] := by decide
theorem test_decode_crcBlk :
    decode (op [0b00000100#8, 0x03#8, 0x00#8, 0x05#8, 0x00#8, 0x10#8]) = .instr (.crcBlk [0x05#8, 0x00#8, 0x10#8]) [] := by
  decide
theorem test_decode_txBuild :
    decode (op [0b00010000#8, 0xFF#8, 0x01#8, 0x02#8, 0x04#8, 0x00#8]) =
      .instr (.txBuild 0xFF#8 0x01#8 [0x04#8, 0x00#8]) [] := by decide
theorem test_decode_txBuildFx : decode (op [0b00010001#8, 0x01#8]) = .instr (.txBuildFx 0x01#8) [] := by decide
theorem test_decode_rxByte : decode (op [0b00100000#8, 0x04#8]) = .instr (.rxByte 0x04#8) [] := by decide
theorem test_decode_rxChunk :
    decode (op [0b00100001#8, 0x02#8, 0x00#8, 0x0E#8, 0x00#8]) = .instr (.rxChunk [0x0E#8, 0x00#8]) [] := by decide
theorem test_decode_rxEos : decode (op [0b00100010#8]) = .instr .rxEos [] := by decide
theorem test_decode_rxFlush : decode (op [0b00100011#8]) = .instr .rxFlush [] := by decide
theorem test_decode_rxStat : decode (op [0b00100100#8]) = .instr .rxStat [] := by decide
theorem test_decode_fpParse :
    decode (op [0b00110000#8, 0x01#8, 0x00#8, 0x00#8]) = .instr (.fpParse [0x00#8]) [] := by decide
theorem test_decode_fpCheck :
    decode (op [0b00110001#8, 0x02#8, 0x00#8, 0xFF#8, 0xFF#8]) = .instr (.fpCheck [0xFF#8, 0xFF#8]) [] := by decide
theorem test_decode_fpStatus : decode (op [0b00110010#8, 0xF8#8]) = .instr (.fpStatus 0xF8#8) [] := by decide
theorem test_decode_tdTlv :
    decode (op [0b01000000#8, 0x02#8, 0x00#8, 0x00#8, 0x37#8]) = .instr (.tdTlv [0x00#8, 0x37#8]) [] := by decide
theorem test_decode_tdFix : decode (op [0b01000001#8, 0x00#8, 0x00#8]) = .instr (.tdFix []) [] := by decide
theorem test_decode_cfgWr : decode (op [0b01010000#8, 0x02#8]) = .instr (.cfgWr 0x02#8) [] := by decide
theorem test_decode_cfgRd : decode (op [0b01010001#8]) = .instr .cfgRd [] := by decide
theorem test_decode_sysReset : decode (op [0b01011111#8]) = .instr .sysReset [] := by decide
/-- V48, and R73: only the op byte is consumed. -/
theorem test_decode_reserved : decode (op [0x60#8, 0x01#8]) = .instr (.reserved 0x60#8) [0x01#8] := by decide
/-- V48: CRC.BLK announcing 3 bytes, carrying 2. -/
theorem test_decode_truncated : decode (op [0x04#8, 0x03#8, 0x00#8, 0x05#8, 0x00#8]) = .instead (.reserved 0x04#8) [] := by decide
/-- V18: the string of a 252-byte payload announces FC bytes. -/
theorem test_decode_truncated_build : decode (op [0x10#8, 0x00#8, 0x01#8, 0xFC#8]) = .instead (.reserved 0x10#8) [] := by decide
/-- The count is low byte first (R70): 0x0100 is 256 bytes, not one. -/
theorem test_decode_count_order : decode (op [0x04#8, 0x00#8, 0x01#8, 0x05#8]) = .instead (.reserved 0x04#8) [] := by decide
theorem test_decode_wireLs :
    decode { chan := .ls, bytes := [0x06#8, 0xFF#8, 0x01#8, 0x04#8, 0x00#8, 0x7E#8, 0xF3#8] } =
      .instr (.wireLs 0xFF#8 0x01#8 [0x04#8, 0x00#8] 0x7E#8 0xF3#8) [] := by decide
theorem test_decode_wireFxCmd :
    decode { chan := .fxCmd,
             bytes := [0b11011101#8, 0b00010001#8, 0b11101111#8, 0b00001001#8, 0b00000001#8, 0b00000001#8, 0b00000001#8,
                       0b01111101#8, 0b00000101#8] } =
      .instr (.wireFxCmd 0x01#8) [] := by decide +kernel
/-- The checksum bytes swapped: an operation string with the unassigned op number DD (R73). -/
theorem test_decode_wireFxCmd_bad_checksum :
    decode { chan := .fxCmd,
             bytes := [0xDD#8, 0x11#8, 0xEF#8, 0x09#8, 0x01#8, 0x01#8, 0x01#8, 0x05#8, 0x7D#8] } =
      .instead (.reserved 0xDD#8) [0x11#8, 0xEF#8, 0x09#8, 0x01#8, 0x01#8, 0x01#8, 0x05#8, 0x7D#8] := by decide +kernel
/-- R75: a Length byte of 0 to 3 is received all the same (V28's bytes). -/
theorem test_decode_wireLs_short :
    decode { chan := .ls, bytes := [0x02#8, 0x95#8, 0x2C#8] } = .instead (.rxChunk [0x02#8, 0x95#8, 0x2C#8]) [] := by decide
/-- A frame still unfinished (the first chunk of R76's example). -/
theorem test_decode_wireLs_unfinished :
    decode { chan := .ls, bytes := [0x04#8, 0x00#8] } = .instead (.rxChunk [0x04#8, 0x00#8]) [] := by decide
theorem test_decode_wireFxIn_unfinished :
    decode { chan := .fxIn, bytes := [0xAA#8, 0x13#8] } = .instead (.rxChunk [0xAA#8, 0x13#8]) [] := by decide
/-- R75: `N` runs past the slice. -/
theorem test_decode_wireTlvRec_runs_past :
    decode { chan := .tlvRec, bytes := [0x05#8, 0xAA#8] } = .instead (.tdTlv [0x05#8, 0xAA#8]) [] := by decide
/-- `FXF` of spec/95_test_vectors.md. -/
theorem test_decode_wireFxIn :
    decode { chan := .fxIn,
             bytes := [0xAA#8, 0x13#8, 0x00#8, 0x00#8, 0x02#8, 0x00#8, 0x4B#8, 0xE2#8, 0x00#8, 0x00#8, 0x11#8, 0x22#8, 0x33#8,
                       0x44#8, 0x55#8, 0x66#8, 0x77#8, 0x59#8, 0xFF#8] } =
      .instr (.wireFxIn 0xAA#8 0x13#8 0x00#8 0x00#8 0x02#8 0x00#8 0x4B#8
        [0xE2#8, 0x00#8, 0x00#8, 0x11#8, 0x22#8, 0x33#8, 0x44#8, 0x55#8, 0x66#8, 0x77#8] 0x59#8 0xFF#8) [] := by decide
theorem test_decode_wireTlvHdr :
    decode { chan := .tlvHdr, bytes := [0b10000010#8] } = .instr (.wireTlvHdr true false 2#6) [] := by decide
theorem test_decode_wireTlvRec :
    decode { chan := .tlvRec, bytes := [0x82#8, 0x12#8, 0x34#8, 0x28#8] } =
      .instr (.wireTlvRec true false [0x12#8, 0x34#8] 0x28#8) [] := by decide
theorem test_decode_statusSuccess :
    decode { chan := .status, bytes := [0b00000000#8] } = .instr .statusSuccess [] := by decide
theorem test_decode_statusFinish :
    decode { chan := .status, bytes := [0b00000001#8] } = .instr .statusFinish [] := by decide
theorem test_decode_statusOverTime :
    decode { chan := .status, bytes := [0b00000010#8] } = .instr .statusOverTime [] := by decide
theorem test_decode_statusExtend :
    decode { chan := .status, bytes := [0b00000011#8] } = .instr .statusExtend [] := by decide
theorem test_decode_statusOverNumber :
    decode { chan := .status, bytes := [0b00000100#8] } = .instr .statusOverNumber [] := by decide
theorem test_decode_statusAerialFault :
    decode { chan := .status, bytes := [0b11111000#8] } = .instr .statusAerialFault [] := by decide
theorem test_decode_statusParamError :
    decode { chan := .status, bytes := [0b11111111#8] } = .instr .statusParamError [] := by decide
theorem test_decode_statusUnrecognized :
    decode { chan := .status, bytes := [0x7A#8] } = .instr (.statusUnrecognized 0x7A#8) [] := by decide

/-! The table's words: operand words the table gives no bits are zeros. -/

theorem test_table_crcBlk : decodeTableWord 24 0x000004 = some (.crcBlk []) := by decide
theorem test_table_crcBlk_three : decodeTableWord 24 0x000304 = some (.crcBlk [0, 0, 0]) := by decide
theorem test_table_rxByte_op_only : decodeTableWord 8 0x20 = some (.rxByte 0) := by decide
theorem test_table_txBuild : decodeTableWord 32 0x01020310 = some (.txBuild 0x03#8 0x02#8 [0]) := by decide
theorem test_table_runs_first :
    (step (State.reset.withFetchWord 16 0x0502) matches .next _) = true := by decide

/-! The spec's vectors (spec/95_test_vectors.md), one step each. -/

/-- The outcome and the state a step ends in, if it completes. -/
def after (i : Instr) (s : State) : Option State :=
  match exec i s with
  | .next t => some t
  | _ => none

/-- Only the outcome list. -/
def out (i : Instr) (s : State) : Option (List Item) := (after i s).map (fun t => t.outcome)

/-- The reset state with `CFG`. -/
def withCfg (d : Dialect) (en : Bool) : State := { State.reset with dialect := d, crcCheckEn := en }

/-- A reassembler holding the bytes `bs` of a frame of `target` bytes. -/
def holding (bs : List Byte) (target : BitVec 9) (s : State) : State :=
  { s with
    rxState := .accumulating, rxLen := BitVec.ofNat 9 bs.length, rxTarget := target
    rxBuf := (List.range bs.length).zip bs }

/-- Four bytes of `FIN` held. -/
def finHeld : State := holding [0x04#8, 0x00#8, 0x01#8, 0xDB#8] 5#9 State.reset

/-- V9. -/
theorem test_crc16_single : crc16 [0x01#8] = 0x1E0E#16 := by decide
/-- V8. -/
theorem test_crc16_check :
    crc16 [0x31#8, 0x32#8, 0x33#8, 0x34#8, 0x35#8, 0x36#8, 0x37#8, 0x38#8, 0x39#8] = 0x6F91#16 := by decide +kernel
/-- V11. -/
theorem test_crcStep_corner : crcStep 0x1234#16 0x56#8 = 0x4006#16 := by decide
theorem test_crcInit : (after .crcInit { State.reset with crcAcc := 0x100F#16 }).map (fun t => t.crcAcc) = some 0xFFFF#16 := by
  decide
/-- V2. -/
theorem test_crcUpd : (after (.crcUpd 0x05#8) State.reset).map (fun t => t.crcAcc) = some 0x582A#16 := by decide
theorem test_crcRd : out .crcRd { State.reset with crcAcc := 0x100F#16 } = some [.value (.u16 0x100F#16)] := by decide
/-- V2, V1. -/
theorem test_crcBlk : out (.crcBlk [0x05#8, 0x00#8, 0x10#8]) State.reset = some [.value (.u16 0x100F#16)] := by decide +kernel
theorem test_crcBlk_empty : out (.crcBlk []) State.reset = some [.value (.u16 0xFFFF#16)] := by decide
/-- V3. -/
theorem test_txBuild :
    out (.txBuild 0xFF#8 0x01#8 [0x04#8, 0x00#8]) State.reset =
      some [.value (.frameBytes [0x06#8, 0xFF#8, 0x01#8, 0x04#8, 0x00#8, 0x7E#8, 0xF3#8])] := by decide +kernel
/-- V18. -/
theorem test_txBuild_too_long :
    out (.txBuild 0x00#8 0x01#8 (List.replicate 252 0x00#8)) State.reset = some [.err (.payloadTooLong 252)] := by
  decide +kernel
/-- V19. -/
theorem test_txBuildFx :
    out (.txBuildFx 0x0F#8) State.reset =
      some [.value (.frameBytes [0xDD#8, 0x11#8, 0xEF#8, 0x09#8, 0x0F#8, 0x01#8, 0x01#8, 0x66#8, 0x15#8])] := by decide +kernel
/-- V20, last byte. -/
theorem test_rxByte_completes :
    out (.rxByte 0x4B#8) finHeld = some [.frame [0x04#8, 0x00#8, 0x01#8, 0xDB#8, 0x4B#8] true] := by decide +kernel
/-- V27 with validation on: Length byte 0 completes at once. -/
theorem test_rxByte_zero_length :
    out (.rxByte 0x00#8) (withCfg .ls true) = some [.err (.checksumMismatch [0x00#8])] := by decide
/-- V22. -/
theorem test_rxChunk :
    (after (.rxChunk [0x04#8, 0x00#8, 0x01#8, 0xDB#8, 0x4B#8, 0x04#8, 0x00#8, 0x02#8, 0x40#8, 0x79#8, 0x04#8])
        State.reset).map (fun t => (t.outcome, t.rxLen, t.rxTarget)) =
      some ([.frame [0x04#8, 0x00#8, 0x01#8, 0xDB#8, 0x4B#8] true, .frame [0x04#8, 0x00#8, 0x02#8, 0x40#8, 0x79#8] true],
        1#9, 5#9) := by decide +kernel
/-- V31: dialect FX. -/
theorem test_rxChunk_fx :
    (after (.rxChunk [0xAA#8, 0x13#8, 0x00#8]) (withCfg .fx false)).map (fun t => (t.outcome, t.rxLen, t.rxTarget)) =
      some ([], 3#9, 19#9) := by decide
/-- V23. -/
theorem test_rxEos :
    (after .rxEos finHeld).map (fun t => (t.outcome, t.rxState, t.rxLen, t.rxTarget)) =
      some ([.err (.transportClosed 4#9)], .idle, 0#9, 0#9) := by decide
/-- V25. -/
theorem test_rxFlush :
    (after .rxFlush finHeld).map (fun t => (t.outcome, t.rxState, t.rxLen, t.rxTarget)) =
      some ([], .idle, 0#9, 0#9) := by decide
/-- V26. -/
theorem test_rxStat :
    out .rxStat (holding [0xFF#8] 256#9 State.reset) = some [.value (.rxStat .accumulating 1#9 256#9)] := by decide
/-- V35. -/
theorem test_fpParse :
    out (.fpParse [0x05#8, 0x00#8, 0x00#8, 0x01#8, 0xFF#8, 0x7C#8]) State.reset =
      some [.value (.fields
        { length := 0x05#8, address := 0x00#8, status := 0x00#8, payload := [0x01#8], crc := 0x7CFF#16, crcOk := true })] := by
  decide +kernel
/-- V35. -/
theorem test_fpParse_wrong_length :
    out (.fpParse [0x05#8, 0x00#8, 0x01#8, 0xDB#8, 0x4B#8]) State.reset = some [.err (.malformedFrame 5)] := by decide
/-- V36. -/
theorem test_fpCheck_swapped :
    out (.fpCheck [0x04#8, 0x00#8, 0x01#8, 0x4B#8, 0xDB#8]) State.reset = some [.value (.crcOk false)] := by decide +kernel
/-- V36. -/
theorem test_fpCheck_empty_body : out (.fpCheck [0xFF#8, 0xFF#8]) State.reset = some [.value (.crcOk true)] := by decide
/-- V37. -/
theorem test_fpStatus :
    out (.fpStatus 0xF8#8) State.reset = some [.value (.status .aerialFault .protocolStatusError)] := by decide
/-- V37. -/
theorem test_fpStatus_unrecognized :
    out (.fpStatus 0xF9#8) State.reset = some [.value (.status (.unrecognized 0xF9#8) .unrecognizedStatus)] := by decide
/-- V38. -/
theorem test_tdTlv :
    out (.tdTlv [0x04#8, 0xDE#8, 0xAD#8, 0xBE#8, 0xEF#8, 0x46#8, 0x82#8, 0x12#8, 0x34#8, 0x28#8]) State.reset =
      some [.value (.records
        [{ tid := [0xDE#8, 0xAD#8, 0xBE#8, 0xEF#8], rssi := 0x46#8, antenna := none, fastid := false, hasphasefreq := false },
         { tid := [0x12#8, 0x34#8], rssi := 0x28#8, antenna := none, fastid := true, hasphasefreq := false }])] := by decide
/-- V39. -/
theorem test_tdTlv_malformed :
    out (.tdTlv [0x01#8, 0xAB#8, 0x3C#8, 0x01#8]) State.reset = some [.err (.malformedPayload 3 1 1)] := by decide
/-- V43. -/
theorem test_tdFix :
    out (.tdFix [0xAA#8, 0x13#8, 0x00#8, 0x00#8, 0x02#8, 0x00#8, 0x4B#8, 0xE2#8, 0x00#8, 0x00#8, 0x11#8, 0x22#8, 0x33#8,
        0x44#8, 0x55#8, 0x66#8, 0x77#8, 0x59#8, 0xFF#8]) State.reset =
      some [.value (.record
        { tid := [0xE2#8, 0x00#8, 0x00#8, 0x11#8, 0x22#8, 0x33#8, 0x44#8, 0x55#8, 0x66#8, 0x77#8], rssi := 0x4B#8
          antenna := some 0x02#8, fastid := false, hasphasefreq := false })] := by decide
/-- V43 under the other reading of 90_conflicts.md C1. -/
theorem test_tdFix_other_reading :
    out (.tdFix [0xAA#8, 0x13#8, 0x00#8, 0x00#8, 0x02#8, 0x00#8, 0x4B#8, 0xE2#8, 0x00#8, 0x00#8, 0x11#8, 0x22#8, 0x33#8,
        0x44#8, 0x55#8, 0x66#8, 0x77#8, 0x59#8, 0xFF#8]) { State.reset with params := { Params.default with fxTidLo := 5 } } =
      some [.value (.record
        { tid := [0x00#8, 0x4B#8, 0xE2#8, 0x00#8, 0x00#8, 0x11#8, 0x22#8, 0x33#8, 0x44#8, 0x55#8, 0x66#8, 0x77#8]
          rssi := 0x4B#8, antenna := some 0x02#8, fastid := false, hasphasefreq := false })] := by decide
/-- V45. -/
theorem test_cfgWr :
    (after (.cfgWr 0xFF#8) State.reset).map (fun t => (t.dialect, t.crcCheckEn, t.outcome)) = some (.fx, true, []) := by
  decide
/-- V46. -/
theorem test_cfgWr_busy :
    (after (.cfgWr 0x01#8) (holding [0x04#8] 5#9 State.reset)).map (fun t => (t.dialect, t.outcome)) =
      some (.ls, [.err (.busy 1#9)]) := by decide
/-- V45. -/
theorem test_cfgRd : out .cfgRd (withCfg .ls true) = some [.value (.u8 0x02#8)] := by decide
/-- V47. -/
theorem test_sysReset :
    after .sysReset { holding [1, 2, 3, 4, 5, 6, 7] 19#9 (withCfg .fx true) with crcAcc := 0x100F#16 } =
      some State.reset := by decide
/-- V48. -/
theorem test_reserved : after (.reserved 0x60#8) State.reset =
    some { State.reset with outcome := [.err (.illegalOp 0x60#8)] } := by decide
/-- `FIN` arriving (V20). -/
theorem test_wireLs :
    out (.wireLs 0x00#8 0x01#8 [] 0xDB#8 0x4B#8) State.reset =
      some [.frame [0x04#8, 0x00#8, 0x01#8, 0xDB#8, 0x4B#8] true] := by decide +kernel
/-- V19. -/
theorem test_wireFxCmd :
    out (.wireFxCmd 0x00#8) State.reset =
      some [.value (.frameBytes [0xDD#8, 0x11#8, 0xEF#8, 0x09#8, 0x00#8, 0x01#8, 0x01#8, 0xA1#8, 0x5F#8])] := by decide +kernel
/-- `FXF` arriving (V31). -/
theorem test_wireFxIn :
    out (.wireFxIn 0xAA#8 0x13#8 0x00#8 0x00#8 0x02#8 0x00#8 0x4B#8
        [0xE2#8, 0x00#8, 0x00#8, 0x11#8, 0x22#8, 0x33#8, 0x44#8, 0x55#8, 0x66#8, 0x77#8] 0x59#8 0xFF#8)
        (withCfg .fx true) =
      some [.frame [0xAA#8, 0x13#8, 0x00#8, 0x00#8, 0x02#8, 0x00#8, 0x4B#8, 0xE2#8, 0x00#8, 0x00#8, 0x11#8, 0x22#8, 0x33#8,
        0x44#8, 0x55#8, 0x66#8, 0x77#8, 0x59#8, 0xFF#8] true] := by decide +kernel
theorem test_wireTlvHdr :
    out (.wireTlvHdr true true 3#6) State.reset =
      some [.value (.tlvHeader { fastid := true, hasphasefreq := true, n := 3#6 })] := by decide
/-- V40. -/
theorem test_wireTlvRec :
    out (.wireTlvRec true true [0x01#8, 0x02#8, 0x03#8] 0x50#8) State.reset =
      some [.value (.records
        [{ tid := [0x01#8, 0x02#8, 0x03#8], rssi := 0x50#8, antenna := none, fastid := true, hasphasefreq := true }])] := by
  decide

/-- The bytes of V40's record, as the wire has them. -/
theorem test_encode_tlvRec :
    encodeBytes (.wireTlvRec true true [0x01#8, 0x02#8, 0x03#8] 0x50#8) = [0xC3#8, 0x01#8, 0x02#8, 0x03#8, 0x50#8] := by
  decide

/-! Trace text (R76) and hexadecimal text (R13, V38). -/

theorem test_hexUpper : hexUpper [0xDE#8, 0xAD#8] = ['D', 'E', 'A', 'D'] := by decide
theorem test_statusCodeText : statusCodeText 0xF8#8 = ['f', '8'] := by decide
theorem test_trace_op : opText (.rxChunk [0x04#8, 0x00#8]) = "RX.CHUNK [04 00]" := by decide
theorem test_trace_outcome :
    outcomeText [.frame [0x01#8, 0xDB#8] true, .err (.busy 1#9)] = "Frame([01 DB], crc_ok=1), Err(Busy, 1)" := by decide

/-! The host's aggregation (V6). -/

/-- A record with this tid and rssi. -/
def rec1 (t r : Byte) : TagRecord := { tid := [t], rssi := r, antenna := none, fastid := false, hasphasefreq := false }

theorem test_aggregate :
    aggregate [{ frame := [], records := [rec1 0x0A#8 0x46#8, rec1 0x0A#8 0x28#8, rec1 0x0B#8 0x41#8] }] =
      [{ tid := [0x0A#8], rssi := 0x46#8, count := 1 }, { tid := [0x0B#8], rssi := 0x41#8, count := 1 }] := by decide

/-! Witnesses: for every statement with hypotheses, a state and operands that meet them together, at a boundary value
for each clause. -/

/-- A fixed-dialect frame in progress, validation on. -/
def fxHeld : State := holding [0xAA#8, 0x13#8] 19#9 (withCfg .fx true)

/-- 255 bytes of the largest frame held: the next byte completes it at 256. -/
def fullHeld : State := holding (0xFF#8 :: List.replicate 254 0x00#8) 256#9 State.reset

theorem inv_reset : Inv State.reset := by
  constructor <;> decide

theorem inv_withCfg (d : Dialect) (en : Bool) : Inv (withCfg d en) := by
  constructor <;> (simp [withCfg, State.reset, State.resetWith]; try decide)

theorem inv_finHeld : Inv finHeld :=
  ⟨by decide, by decide, by decide, by decide, by decide, fun _ _ => ⟨0x04#8, by decide, by decide⟩, by decide⟩

theorem inv_fxHeld : Inv fxHeld :=
  ⟨by decide, by decide, by decide, by decide, by decide, fun h => (by cases h), by decide⟩

theorem inv_fullHeld : Inv fullHeld :=
  ⟨by decide +kernel, by decide +kernel, by decide +kernel, by decide +kernel, by decide +kernel,
    fun _ _ => ⟨0xFF#8, by decide +kernel, by decide +kernel⟩, fun h => by cases h⟩

theorem exec_of_after {i : Instr} {s : State} (h : (after i s).isSome = true) : ∃ t, exec i s = .next t := by
  unfold after at h
  split at h
  · rename_i t ht; exact ⟨t, ht⟩
  · cases h

/-- StepKeepsInvariant, InvariantStateNeverStops: an invariant state in mid-frame that steps. -/
theorem witness_StepKeepsInvariant :
    Inv { finHeld with input := [op [0x20#8, 0x4B#8]] } ∧
      (step { finHeld with input := [op [0x20#8, 0x4B#8]] } matches .next _) = true :=
  ⟨⟨by decide, by decide, by decide, by decide, by decide, fun _ _ => ⟨0x04#8, by decide, by decide⟩, by decide⟩,
    by decide +kernel⟩

theorem witness_CrcSeesEveryByteChange : (0x00#8 : Byte) ≠ 0x01#8 := by decide

theorem witness_CrcOkIffResidueZero : 2 ≤ [0xFF#8, (0xFF#8 : Byte)].length := by decide

/-- TxBuildResult, ParseInvertsBuild, BuildReassembleParse: the largest payload. -/
theorem witness_TxBuildResult : (List.replicate 251 (0x00#8 : Byte)).length ≤ 251 := by decide +kernel
theorem witness_TxBuildResult_refused : 251 < (List.replicate 252 (0x00#8 : Byte)).length := by decide +kernel

/-- BuildReassembleParse: an idle LS unit and `FIN` cut in three, one chunk empty. -/
theorem witness_BuildReassembleParse :
    Inv State.reset ∧ State.reset.rxState = .idle ∧ State.reset.dialect = .ls ∧
      [[0x04#8], [], [0x00#8, 0x01#8, 0xDB#8, 0x4B#8]].flatten = lsFrame 0x00#8 0x01#8 [] :=
  ⟨inv_reset, rfl, rfl, by decide +kernel⟩

/-- RxByteResult, RxChunkIsItsBytes, ChunkBoundaryIndependence: each clause has an invariant state. The first byte in
`LS` (target 1, completing at once, and target 256), the first byte in `FX`, a byte that goes on, a byte that completes
the largest frame. -/
theorem witness_RxByteResult_first_ls :
    Inv State.reset ∧ State.reset.rxState = .idle ∧ State.reset.dialect = .ls ∧
      State.reset.rxLen.toNat + 1 = (0x00#8 : Byte).toNat + 1 ∧ State.reset.rxLen.toNat + 1 ≠ (0xFF#8 : Byte).toNat + 1 :=
  ⟨inv_reset, rfl, rfl, by decide, by decide⟩
theorem witness_RxByteResult_first_fx :
    Inv (withCfg .fx true) ∧ (withCfg .fx true).rxState = .idle ∧ (withCfg .fx true).dialect = .fx ∧
      (withCfg .fx true).rxLen.toNat + 1 ≠ 19 :=
  ⟨inv_withCfg .fx true, rfl, rfl, by decide⟩
theorem witness_RxByteResult_goes_on :
    Inv fxHeld ∧ fxHeld.rxState = .accumulating ∧ fxHeld.rxLen.toNat + 1 ≠ fxHeld.rxTarget.toNat :=
  ⟨inv_fxHeld, rfl, by decide⟩
theorem witness_RxByteResult_completes :
    Inv fullHeld ∧ fullHeld.rxState = .accumulating ∧ fullHeld.rxLen.toNat + 1 = fullHeld.rxTarget.toNat :=
  ⟨inv_fullHeld, rfl, by decide +kernel⟩

/-- EmittedFramesHaveDeclaredSize: an emitted frame in each dialect. -/
theorem witness_EmittedFramesHaveDeclaredSize_ls :
    Inv finHeld ∧ finHeld.dialect = .ls ∧ ∃ t, exec (.rxChunk [0x4B#8]) finHeld = .next t :=
  ⟨inv_finHeld, rfl, exec_of_after (by decide +kernel)⟩
theorem witness_EmittedFramesHaveDeclaredSize_ls_item :
    out (.rxChunk [0x4B#8]) finHeld = some [.frame [0x04#8, 0x00#8, 0x01#8, 0xDB#8, 0x4B#8] true] := by decide +kernel
theorem witness_EmittedFramesHaveDeclaredSize_fx :
    Inv fxHeld ∧ fxHeld.dialect = .fx ∧
      (out (.rxChunk (List.replicate 17 0x00#8)) fxHeld).map (fun l => l.length) = some 1 :=
  ⟨inv_fxHeld, rfl, by decide +kernel⟩

/-- WellFormedStreamIsFramed: frames of 1, 5 and 256 bytes in `LS`; a 19-byte one in `FX`. -/
theorem witness_WellFormedStreamIsFramed_ls :
    Inv State.reset ∧ State.reset.rxState = .idle ∧ State.reset.dialect = .ls ∧
      ∀ f ∈ [[0x00#8], [0x04#8, 0x00#8, 0x01#8, 0xDB#8, 0x4B#8], 0xFF#8 :: List.replicate 255 0x00#8],
        f.length = (byteAt f 0).toNat + 1 :=
  ⟨inv_reset, rfl, rfl, by decide +kernel⟩
theorem witness_WellFormedStreamIsFramed_fx :
    Inv (withCfg .fx true) ∧ (withCfg .fx true).rxState = .idle ∧ (withCfg .fx true).dialect = .fx ∧
      ∀ f ∈ [List.replicate 19 (0x00#8 : Byte)], f.length = 19 :=
  ⟨inv_withCfg .fx true, rfl, rfl, by decide +kernel⟩

/-- ReceivedBytesFrame: a byte that completes, stored at 4; address 5 is not stored to. -/
theorem witness_ReceivedBytesFrame :
    receivedBytes (.rxByte 0x4B#8) = some [0x4B#8] ∧ (∃ t, exec (.rxByte 0x4B#8) finHeld = .next t) ∧
      ¬ storesAt [0x4B#8] finHeld 5 := by
  refine ⟨rfl, exec_of_after (by decide +kernel), ?_⟩
  rintro ⟨k, t, items, hk, h, ha⟩
  have hk0 : k = 0 := by simpa using hk
  subst hk0
  simp only [List.take_zero, receiveAll, Except.ok.injEq, Prod.mk.injEq] at h
  rw [← h.1] at ha
  revert ha
  decide

/-- FpParseResult: the shortest and the largest frame, and each way to be refused. -/
theorem witness_FpParseResult :
    (0x04#8 : Byte).toNat = ([] : List Byte).length + 4 ∧ (0xFF#8 : Byte).toNat = (List.replicate 251 (0#8 : Byte)).length + 4 ∧
      [0x03#8, 0x00#8, 0x01#8, (0xFF#8 : Byte)].length < 5 ∧
      (byteAt [0x05#8, 0x00#8, 0x01#8, 0xDB#8, 0x4B#8] 0).toNat ≠ [0x05#8, 0x00#8, 0x01#8, 0xDB#8, (0x4B#8 : Byte)].length - 1 := by
  decide +kernel

theorem witness_FpCheckResult : [(0x00#8 : Byte)].length < 2 := by decide

/-- FpStatusResult, StatusRowsResult: a byte outside the table. -/
theorem witness_FpStatusResult :
    (0x05#8 : Byte) ∉ [0x00#8, 0x01#8, 0x02#8, 0x03#8, 0x04#8, 0xF8#8, (0xFF#8 : Byte)] := by decide

/-- ParseInvertsBuild, second part: `FIN` is accepted with `crc_ok = 1`. -/
theorem witness_ParseInvertsBuild :
    parseFrame [0x04#8, 0x00#8, 0x01#8, 0xDB#8, 0x4B#8] =
      .ok { length := 0x04#8, address := 0x00#8, status := 0x01#8, payload := [], crc := 0x4BDB#16, crcOk := true } := by
  decide +kernel

/-- TdTlvResult: a longest record, an empty one, and a header whose record lacks one byte. -/
theorem witness_TdTlvResult :
    (∀ r ∈ [rec1 0x0A#8 0x46#8, { rec1 0#8 0#8 with tid := List.replicate 63 0#8 }, { rec1 0#8 0#8 with tid := [] }],
      r.antenna = none ∧ r.tid.length ≤ 63) ∧
      [0x01#8, (0xAB#8 : Byte)].length < 2 + tidCount 0x01#8 := by decide +kernel

/-- TlvLaws: a slice that decodes, and one that does not. -/
theorem witness_TlvLaws :
    decodeTlv [0x01#8, 0xAB#8, 0x3C#8] = .ok [rec1 0xAB#8 0x3C#8] ∧ decodeTlv [0x00#8] = .error (.malformedPayload 0 0 0) := by
  decide +kernel

/-- TdFixResult: the default range, a 19-byte frame, and lengths on both sides of 19. -/
theorem witness_TdFixResult :
    State.reset.params.fxTidLo = 7 ∧ State.reset.params.fxTidHi = 16 ∧ State.reset.params.wf = true ∧
      (List.replicate 10 (0#8 : Byte)).length = 10 ∧ (List.replicate 19 (0#8 : Byte)).length = 19 ∧
      (List.replicate 18 (0#8 : Byte)).length ≠ 19 ∧ (List.replicate 20 (0#8 : Byte)).length ≠ 19 := by decide

/-- CfgWrResult: a state for each clause. -/
theorem witness_CfgWrResult : State.reset.rxState = .idle ∧ finHeld.rxState = .accumulating := by decide

/-- WireLsArrives, WireFxInArrives: an idle unit in the frame's dialect, and one in mid-frame. -/
theorem witness_WireArrives :
    Inv State.reset ∧ State.reset.rxState = .idle ∧ State.reset.dialect = .ls ∧ Inv (withCfg .fx false) ∧
      (withCfg .fx false).rxState = .idle ∧ (withCfg .fx false).dialect = .fx ∧ Inv fxHeld :=
  ⟨inv_reset, rfl, rfl, inv_withCfg .fx false, rfl, rfl, inv_fxHeld⟩

/-- WireTlvRecResult: the longest tid. -/
theorem witness_WireTlvRecResult : (List.replicate 63 (0x00#8 : Byte)).length ≤ 63 := by decide

/-- A state with one transfer waiting. -/
def waiting (t : Transfer) : State := { State.reset with input := [t] }

/-- The bytes of no format: WireLsArrives (Length 3 and an unfinished frame of the largest Length), WireFxInArrives (1 and
18 bytes), WireFxCmdResult (one byte short), WireTlvRecResult (one byte short), StepRunsDecodedInstruction. -/
theorem witness_OtherBytes :
    (waiting { chan := .ls, bytes := [0x03#8] }).input = { chan := .ls, bytes := [0x03#8] } :: [] ∧
      (0x03#8 : Byte).toNat ≤ 3 ∧ (List.replicate 254 (0#8 : Byte)).length < (0xFF#8 : Byte).toNat ∧
      0 < (List.replicate 18 (0#8 : Byte)).length ∧ (List.replicate 18 (0#8 : Byte)).length < 19 ∧
      (∀ m : Byte, ¬ fxCommand m <+: [0xDD#8, 0x11#8, 0xEF#8, 0x09#8, 0x01#8, 0x01#8, 0x01#8, 0x7D#8]) ∧
      [0x3F#8, (0x00#8 : Byte)].length < 2 + tidCount 0x3F#8 ∧
      decode (op [0x02#8]) = .instead (.reserved 0x02#8) [] := by
  refine ⟨rfl, by decide, by decide +kernel, by decide, by decide, fun m h => ?_, by decide, by decide⟩
  exact absurd h.length_le (by simp [fxCommand, appendCrc, fxCommandBody, crcBytes])
/-- V27 with the bytes arriving on the wire: both frames come out (R75). -/
theorem test_step_wireLs_short :
    (match step (waiting { chan := .ls, bytes := [0x00#8, 0x04#8, 0x00#8, 0x01#8, 0xDB#8, 0x4B#8] }) with
      | .next t => t.outcome
      | _ => []) =
      [.frame [0x00#8] false, .frame [0x04#8, 0x00#8, 0x01#8, 0xDB#8, 0x4B#8] true] := by decide +kernel

/-- AccumulatorIsPrivate, OnlyCfgWriteChangesCfg, OnlyRxChangesReassembler: an instruction outside each exception. -/
theorem witness_WholeMachine :
    (∃ t, exec .cfgRd finHeld = .next t) ∧ Instr.cfgRd ≠ .crcInit ∧ (∀ b, Instr.cfgRd ≠ .crcUpd b) ∧ Instr.cfgRd ≠ .crcRd ∧
      Instr.cfgRd ≠ .sysReset ∧ (∀ v, Instr.cfgRd ≠ .cfgWr v) ∧ receivedBytes .cfgRd = none ∧ Instr.cfgRd ≠ .rxEos ∧
      Instr.cfgRd ≠ .rxFlush :=
  ⟨exec_of_after (by decide), by decide, fun _ => by simp, by decide, by decide, fun _ => by simp, rfl, by decide, by decide⟩

/-- ParametersAndInputKept, OneItemAndRefusals (its first part). -/
theorem witness_ParametersAndInputKept :
    (∃ t, exec (.rxByte 0x4B#8) finHeld = .next t) ∧
      ∀ bs, receivedBytes (.rxByte 0x4B#8) = some bs → ∃ b, Instr.rxByte 0x4B#8 = .rxByte b :=
  ⟨exec_of_after (by decide +kernel), fun _ _ => ⟨_, rfl⟩⟩

theorem witness_ReadsAndIdempotence : readsOnly (.tdTlv [0x05#8]) = true ∧ readsOnly .rxStat = true := by decide

/-- ErrorsByOperation, OneItemAndRefusals, ErrorsArePrecise: an outcome with an error of each kind of clause. -/
theorem witness_Errors :
    out (.rxByte 0x00#8) (withCfg .ls true) = some [.err (.checksumMismatch [0x00#8])] ∧
      out (.cfgWr 0x00#8) finHeld = some [.err (.busy 4#9)] ∧ isRefusal (.busy 4#9) = true ∧
      out .rxEos finHeld = some [.err (.transportClosed 4#9)] ∧
      out (.tdTlv [0x05#8]) State.reset = some [.err (.malformedPayload 0 5 0)] := by decide +kernel

/-- StaleBytesUnobservable: two states that differ in a stale byte. -/
theorem witness_StaleBytesUnobservable :
    SameButStale finHeld { finHeld with rxBuf := finHeld.rxBuf ++ [(9, 0x77#8)] } ∧
      finHeld ≠ { finHeld with rxBuf := finHeld.rxBuf ++ [(9, 0x77#8)] } :=
  ⟨⟨rfl, by decide⟩, by decide⟩

/-- DecodeInvertsEncode, EncodeInvertsDecode: a well-formed instruction with bytes after it. -/
theorem witness_DecodeInvertsEncode :
    wellFormed (.crcBlk [0x05#8]) = true ∧ decode (op [0x04#8, 0x01#8, 0x00#8, 0x05#8, 0x03#8]) = .instr (.crcBlk [0x05#8]) [0x03#8] := by
  decide

/-- IllegalOpRefused: an unassigned number, and a string cut short. -/
theorem witness_IllegalOpRefused :
    (0x60#8 : Byte) ∉ assignedOps ∧ wellFormed (.crcUpd 0x05#8) = true ∧ channelOf (.crcUpd 0x05#8) = .op ∧
      0 < 1 ∧ 1 < (encodeBytes (.crcUpd 0x05#8)).length ∧ (encodeBytes (.crcUpd 0x05#8)).take 1 = [0x02#8] := by decide

/-- StepRunsDecodedInstruction: a waiting operation, and none. -/
theorem witness_StepRunsDecodedInstruction :
    ({ State.reset with input := [op [0x03#8, 0x51#8]] } : State).input = op [0x03#8, 0x51#8] :: [] ∧
      decode (op [0x03#8, 0x51#8]) = .instr .crcRd [0x51#8] ∧ State.reset.input = [] := by decide

/-- MultiFrameProgress: the frames of V5. -/
theorem witness_MultiFrameProgress :
    (Session.new (.ls 0x00#8 0x01#8 []) false).start.onSent.phase = .awaitingFrame ∧
      (Session.new (.ls 0x00#8 0x01#8 []) false).start.onSent.batches = [] ∧
      parseFrame [0x08#8, 0x00#8, 0x03#8, 0x02#8, 0xA1#8, 0xA2#8, 0x50#8, 0x18#8, 0x12#8] =
        .ok { length := 0x08#8, address := 0x00#8, status := 0x03#8, payload := [0x02#8, 0xA1#8, 0xA2#8, 0x50#8]
              crc := 0x1218#16, crcOk := true } ∧
      decodeTlv [0x02#8, 0xA1#8, 0xA2#8, 0x50#8] =
        .ok [{ tid := [0xA1#8, 0xA2#8], rssi := 0x50#8, antenna := none, fastid := false, hasphasefreq := false }] := by
  decide +kernel

/-- AggregateFirstInsertionWins: two records of one tid and one below the threshold. -/
theorem witness_AggregateFirstInsertionWins :
    [rec1 0x0A#8 0x46#8, rec1 0x0A#8 0x50#8] =
      [rec1 0x0A#8 0x46#8, rec1 0x0A#8 0x3B#8, rec1 0x0A#8 0x50#8].filter (fun r => decide (60 ≤ r.rssi.toNat)) := by
  decide +kernel

/-- StopScanSilences: a session in each phase it speaks of. -/
theorem witness_StopScanSilences :
    (Session.new (.fx 0x01#8) true).start.phase = .sending ∧
      (Session.new (.fx 0x01#8) true).start.onSent.phase = .awaitingFrame ∧
      ((Session.new (.fx 0x01#8) true).finish []).polling = true ∧
      ((Session.new (.fx 0x01#8) true).finish []).phase = .terminalSuccess ∧
      ((Session.new (.fx 0x01#8) true).finish []).cancelled = false ∧
      (Session.new (.fx 0x01#8) false).polling = false ∧ (Session.new (.fx 0x01#8) true).phase ≠ .terminalSuccess ∧
      (Session.new (.fx 0x01#8) true).stop.cancelled = true := by decide
/-- R177 with V15: the command frame `04 00 01 DB 4B` is handed to `send`, once. -/
theorem test_startScan_sends :
    (match Link.startScan { session := Session.new (.ls 0x00#8 0x01#8 []) false, block := State.reset } with
      | .next u => u.session.sent
      | _ => []) = [[0x04#8, 0x00#8, 0x01#8, 0xDB#8, 0x4B#8]] := by decide +kernel
/-- R182: an exception of `send` is reported once, as "transport" with its message. -/
theorem test_send_exception :
    ((Session.new (.ls 0x00#8 0x01#8 []) false).start.onTransportException "x").calls =
      [.onError .transport (some (.text "x"))] := by decide

/-- MultiFrameProgress over any capabilities: an interface whose frames of one byte are `extend` and all others `finish`. -/
theorem witness_MultiFrameProgress_capability :
    ∃ c : Capability, c.interpretStatus [0x03#8] = .ok (0x03#8, .extend) ∧ c.parseTagPayload [0x03#8] = .ok [] ∧
      c.interpretStatus [] = .ok (0x01#8, .finish) ∧ statusClass .finish = .terminalOk :=
  ⟨{ buildCommand := .txBuildFx 0x01#8
     interpretStatus := fun f => .ok (if f.length = 1 then (0x03#8, .extend) else (0x01#8, .finish))
     parseTagPayload := fun _ => .ok []
     frameLength := targetOf .fx }, by decide, rfl, by decide, rfl⟩
/-- R154, R176: a session of the fixed-length dialect decodes by TD.FIX. -/
theorem test_fx_session_payload :
    (fxParseTagPayload Params.default (List.replicate 19 0x11#8)).map (fun rs => rs.map (fun r => r.antenna)) =
      .ok [some 0x11#8] := rfl
/-- R186: the session's dialect reaches `CFG`. -/
theorem test_configure :
    (match Link.configure true { session := Session.new (.fx 0x01#8) false, block := State.reset } with
      | .next u => (u.block.dialect, u.block.crcCheckEn)
      | _ => (.ls, false)) = (.fx, true) := by decide

end Sys2Proof.Tests
end

/-! What one instruction can do, said once for every proof about `exec`. -/

section
namespace Sys2Proof.Proofs.Effects

open Sys2Proof.Machine
open Sys2Proof.Safety
open Sys2Proof.Laws

/-! Instructions that only read (R27, R45): each ends with exactly one item, a value or an error. -/

theorem execTxBuild_responds (adr cmd : Byte) (p : List Byte) (s : State) :
    ∃ x, execTxBuild adr cmd p s = .next (respond [x] s) := by
  unfold execTxBuild
  split
  · exact ⟨.err (.payloadTooLong p.length), rfl⟩
  · exact ⟨.value (.frameBytes (lsFrame adr cmd p)), rfl⟩

theorem execFpParse_responds (f : List Byte) (s : State) : ∃ x, execFpParse f s = .next (respond [x] s) := by
  unfold execFpParse
  cases parseFrame f with
  | ok fields => exact ⟨.value (.fields fields), rfl⟩
  | error e => exact ⟨.err e, rfl⟩

theorem answerTlv_responds (bs : List Byte) (s : State) : ∃ x, answerTlv bs s = .next (respond [x] s) := by
  unfold answerTlv
  cases decodeTlv bs with
  | ok rs => exact ⟨.value (.records rs), rfl⟩
  | error e => exact ⟨.err e, rfl⟩

theorem execTdFix_responds (f : List Byte) (s : State) : ∃ x, execTdFix f s = .next (respond [x] s) := by
  unfold execTdFix
  cases decodeFix s.params f with
  | ok r => exact ⟨.value (.record r), rfl⟩
  | error e => exact ⟨.err e, rfl⟩

/-- R45: a reading instruction always completes, and only the outcome list changes. -/
theorem exec_of_readsOnly {i : Instr} (h : readsOnly i = true) (s : State) :
    ∃ x, exec i s = .next (respond [x] s) := by
  cases i with
  | txBuild adr cmd p => exact execTxBuild_responds adr cmd p s
  | fpParse f => exact execFpParse_responds f s
  | tdTlv bs => exact answerTlv_responds bs s
  | wireTlvRec f p tid rssi => exact answerTlv_responds (tlvRecordBytes f p tid rssi) s
  | tdFix f => exact execTdFix_responds f s
  | crcRd | crcBlk | txBuildFx | rxStat | fpCheck | fpStatus | cfgRd | reserved | wireFxCmd | wireTlvHdr
  | statusSuccess | statusFinish | statusOverTime | statusExtend | statusOverNumber | statusAerialFault
  | statusParamError | statusUnrecognized => exact ⟨_, rfl⟩
  | crcInit | crcUpd | rxByte | rxChunk | rxEos | rxFlush | cfgWr | sysReset | wireLs | wireFxIn => cases h

/-! Instructions that feed the reassembler (R117, R120). -/

theorem receiveAll_singleton (b : Byte) (s : State) : receiveAll [b] s = receiveByte b s := by
  rw [Rx.receiveAll_cons]
  cases receiveByte b s with
  | error e => rfl
  | ok p => simp [Except.map]

/-- R120: every instruction that brings bytes delivers what the reassembler makes of them in order. -/
theorem exec_of_receivedBytes {i : Instr} {bs : List Byte} (h : receivedBytes i = some bs) (s : State) :
    exec i s = deliver (receiveAll bs s) := by
  cases i with
  | rxByte b =>
    cases h
    rw [receiveAll_singleton]
    rfl
  | rxChunk | wireLs | wireFxIn =>
    cases h
    rfl
  | _ => cases h

/-- R117: one received byte completes at most one frame. -/
theorem receiveByte_items_length {b : Byte} {s t : State} {items : List Item} (h : receiveByte b s = .ok (t, items)) :
    items.length ≤ 1 := by
  obtain ⟨-, ⟨-, -, rfl⟩ | ⟨-, -, f, -, rfl⟩⟩ := Rx.receiveByte_cases h <;> simp

/-- R119: the only error a complete frame yields is ChecksumMismatch, which is no refusal. -/
theorem isRefusal_of_frameItem {en : Bool} {f : List Byte} {e : Err} (h : frameItem en f = .err e) :
    isRefusal e = false := by
  obtain ⟨-, -, hf⟩ | ⟨-, hf⟩ := Ops.frameItem_cases en f
  · obtain rfl : Err.checksumMismatch f = e := by simpa [hf] using h
    rfl
  · simp [hf] at h

theorem isRefusal_of_received {bs : List Byte} {s t : State} {items : List Item} {e : Err}
    (h : receiveAll bs s = .ok (t, items)) (he : .err e ∈ items) : isRefusal e = false := by
  obtain ⟨f, hf⟩ := Ops.receiveAll_items h _ he
  exact isRefusal_of_frameItem hf.symm

/-! All instructions. -/

/-- The effects an instruction can have on a state: every way `exec` answers a next state (`exec_effect`). -/
inductive Effect : Instr → State → State → Prop where
  /-- One item is answered and nothing else changes (R27, R45). -/
  | read {i : Instr} {s : State} (hi : readsOnly i = true) (x : Item) : Effect i s (respond [x] s)
  /-- Bytes are received in order (R117, R120). -/
  | receive {i : Instr} {bs : List Byte} {s u : State} {items : List Item} (hi : receivedBytes i = some bs)
      (hr : receiveAll bs s = .ok (u, items)) : Effect i s (respond items u)
  /-- R93. -/
  | crcInit (s : State) : Effect .crcInit s (respond [] { s with crcAcc := Config.crcInit })
  /-- R94. -/
  | crcUpd (b : Byte) (s : State) : Effect (.crcUpd b) s (respond [] { s with crcAcc := crcStep s.crcAcc b })
  /-- R121. -/
  | rxEos (s : State) : Effect .rxEos s (respond [.err (.transportClosed s.rxLen)] (goIdle s))
  /-- R122. -/
  | rxFlush (s : State) : Effect .rxFlush s (respond [] (goIdle s))
  /-- R166 while a frame is being assembled. -/
  | cfgBusy (v : Byte) {s : State} (hs : s.rxState = .accumulating) :
      Effect (.cfgWr v) s (respond [.err (.busy s.rxLen)] s)
  /-- R166 when `Idle`. -/
  | cfgWrite (v : Byte) {s : State} (hs : s.rxState = .idle) :
      Effect (.cfgWr v) s (respond [] { s with dialect := dialectOfBit (v.getLsbD 0), crcCheckEn := v.getLsbD 1 })
  /-- R167. -/
  | sysReset (s : State) : Effect .sysReset s (respond [] { State.resetWith s.params with input := s.input })

theorem effect_of_readsOnly {i : Instr} {s t : State} (hi : readsOnly i = true) (h : exec i s = .next t) :
    Effect i s t := by
  obtain ⟨x, hx⟩ := exec_of_readsOnly hi s
  obtain rfl : respond [x] s = t := by simpa [hx] using h
  exact .read hi x

theorem effect_of_receivedBytes {i : Instr} {bs : List Byte} {s t : State} (hi : receivedBytes i = some bs)
    (h : exec i s = .next t) : Effect i s t := by
  rw [exec_of_receivedBytes hi, Ops.deliver_next] at h
  obtain ⟨u, items, hr, rfl⟩ := h
  exact .receive hi hr

theorem effect_of_cfgWr {v : Byte} {s t : State} (h : execCfgWr v s = .next t) : Effect (.cfgWr v) s t := by
  unfold execCfgWr at h
  split at h
  next hs => exact Ops.raise_next.1 h ▸ .cfgBusy v hs
  next hs => exact Ops.done_next.1 h ▸ .cfgWrite v hs

/-- All an instruction can do when it answers a next state. -/
theorem exec_effect {i : Instr} {s t : State} (h : exec i s = .next t) : Effect i s t := by
  cases i with
  | crcInit => exact Ops.done_next.1 h ▸ .crcInit s
  | crcUpd b => exact Ops.done_next.1 h ▸ .crcUpd b s
  | rxEos => exact Ops.raise_next.1 h ▸ .rxEos s
  | rxFlush => exact Ops.done_next.1 h ▸ .rxFlush s
  | cfgWr v => exact effect_of_cfgWr h
  | sysReset => exact Ops.done_next.1 h ▸ .sysReset s
  | rxByte | rxChunk | wireLs | wireFxIn => exact effect_of_receivedBytes rfl h
  | _ => exact effect_of_readsOnly rfl h

/-! What every effect keeps or bounds. -/

theorem Effect.params_input {i : Instr} {s t : State} (h : Effect i s t) :
    t.params = s.params ∧ t.input = s.input := by
  cases h with
  | receive hi hr =>
    obtain ⟨hparams, -, -, -, hinput, -⟩ := Rx.receiveAll_frame hr
    exact ⟨hparams, hinput⟩
  | _ => exact ⟨rfl, rfl⟩

/-- R12: one item at most, where the bytes received are at most one. -/
theorem Effect.outcome_length {i : Instr} {s t : State} (h : Effect i s t)
    (hi : ∀ bs, receivedBytes i = some bs → ∃ b, i = .rxByte b) : t.outcome.length ≤ 1 := by
  cases h with
  | receive hbs hr =>
    obtain ⟨b, rfl⟩ := hi _ hbs
    cases hbs
    rw [receiveAll_singleton] at hr
    exact receiveByte_items_length hr
  | _ => simp

/-- R12: where a refusal is among the items, it is the only one and nothing else has changed. -/
theorem Effect.eq_of_refusal {i : Instr} {s t : State} {e : Err} (h : Effect i s t) (he : .err e ∈ t.outcome)
    (hr : isRefusal e = true) : t = respond [.err e] s := by
  cases h with
  | read hi x =>
    obtain rfl : Item.err e = x := by simpa using he
    rfl
  | receive hi hrecv => simp [isRefusal_of_received hrecv he] at hr
  | cfgBusy v hs =>
    obtain rfl : e = .busy s.rxLen := by simpa using he
    rfl
  | rxEos =>
    obtain rfl : e = .transportClosed s.rxLen := by simpa using he
    cases hr
  | crcInit | crcUpd | rxFlush | cfgWrite | sysReset => simp at he

end Sys2Proof.Proofs.Effects
end

/-! What fetching takes from the input, and what a step makes of it (R5, R49; logs 1 to 5 and 14). -/

section
namespace Sys2Proof.Proofs.Stepping

open Sys2Proof.Machine

/-- Log 3: the bytes left stand in front of the other transfers. -/
theorem putBack_eq (chan : Channel) (rest : List Byte) (ts : List Transfer) :
    putBack chan rest ts = if rest = [] then ts else { chan := chan, bytes := rest } :: ts := by
  cases rest <;> rfl

/-- Log 5: on every channel a transfer of no bytes is no unit of its format. -/
theorem decode_no_bytes (chan : Channel) : decode { chan := chan, bytes := [] } = .empty := by
  cases chan <;> rfl

variable {s : State} {t : Transfer} {ts : List Transfer} {i : Instr} {rest : List Byte}

theorem step_of_instr (hs : s.input = t :: ts) (hd : decode t = .instr i rest) :
    step s = exec i { s with input := putBack t.chan rest ts } := by
  simp only [step, fetch, hs, hd]

theorem step_of_instead (hs : s.input = t :: ts) (hd : decode t = .instead i rest) :
    step s = exec i { s with input := putBack .op rest ts } := by
  simp only [step, fetch, hs, hd]

theorem step_of_empty (hs : s.input = t :: ts) (hd : decode t = .empty) : step s = .next { s with input := ts } := by
  simp only [step, fetch, hs, hd]

theorem step_of_no_input (hs : s.input = []) : step s = .next s := by
  simp only [step, fetch, hs]

end Sys2Proof.Proofs.Stepping
end

/-! The obligations on the whole machine's scope: O47, O50 and O56. -/

section
namespace Sys2Proof.Proofs.Scope

open Sys2Proof.Machine
open Sys2Proof.Proofs.Effects
open Sys2Proof.Proofs.Stepping

/-- Settles O47, by the effects an instruction can have. -/
theorem parametersAndInputKept : Obligations.ParametersAndInputKept := by
  unfold Obligations.ParametersAndInputKept
  intro i s t h
  exact (exec_effect h).params_input

/-- Settles O50, by the effects an instruction can have: only received bytes yield several items, and they yield no
refusal. -/
theorem oneItemAndRefusals : Obligations.OneItemAndRefusals := by
  unfold Obligations.OneItemAndRefusals
  constructor
  · intro i s t h hi
    exact (exec_effect h).outcome_length hi
  · intro i s t e h he hr
    exact (exec_effect h).eq_of_refusal he hr

/-- Settles O56, by what the head of the input decodes to. -/
theorem stepRunsDecodedInstruction : Obligations.StepRunsDecodedInstruction := by
  unfold Obligations.StepRunsDecodedInstruction
  refine ⟨?_, ?_, ?_, ?_⟩
  · intro s t ts i rest hs hd
    rw [step_of_instr hs hd, putBack_eq]
  · intro s t ts i rest hs hd
    rw [step_of_instead hs hd, putBack_eq]
  · intro s hs
    exact step_of_no_input hs
  · intro s chan ts hs
    exact step_of_empty hs (decode_no_bytes chan)

end Sys2Proof.Proofs.Scope
end

/-! What an effect leaves alone, register by register (R20 to R22, R26). -/

section
namespace Sys2Proof.Proofs.Effects

open Sys2Proof.Machine
open Sys2Proof.Safety
open Sys2Proof.Laws

theorem receiveAll_keeps_inv {bs : List Byte} {s t : State} {items : List Item} (h : Inv s)
    (hr : receiveAll bs s = .ok (t, items)) : Inv t := by
  obtain ⟨u, items', hu, hinv⟩ := Rx.receiveAll_inv h bs
  obtain ⟨rfl, -⟩ : u = t ∧ items' = items := by simpa [hu] using hr
  exact hinv

/-- Three kinds of effect: the reassembler stays as it was; it is made `Idle` and empty, or was so and stays so while
`CFG` changes; bytes are received. -/
theorem Effect.keeps_inv {i : Instr} {s t : State} (h : Effect i s t) (hs : Inv s) : Inv t := by
  cases h with
  | read | crcInit | crcUpd | cfgBusy => exact Rx.inv_congr hs rfl rfl rfl rfl rfl
  | rxEos | rxFlush => exact Rx.inv_of_idle hs.bufWf rfl rfl rfl
  | sysReset => exact Rx.inv_of_idle rfl rfl rfl rfl
  | cfgWrite v hidle =>
    have hlen := hs.idleLen.1 hidle
    exact Rx.inv_of_idle hs.bufWf hidle hlen (hs.lenTarget.1 hlen)
  | receive hi hr => exact Rx.inv_congr (receiveAll_keeps_inv hs hr) rfl rfl rfl rfl rfl

/-- R20, R21. -/
theorem Effect.cfg {i : Instr} {s t : State} (h : Effect i s t) (hcfg : ∀ v, i ≠ .cfgWr v) (hreset : i ≠ .sysReset) :
    t.dialect = s.dialect ∧ t.crcCheckEn = s.crcCheckEn := by
  cases h with
  | receive hi hr =>
    obtain ⟨-, hdialect, hcheck, -⟩ := Rx.receiveAll_frame hr
    exact ⟨hdialect, hcheck⟩
  | cfgWrite v => exact absurd rfl (hcfg v)
  | sysReset => exact absurd rfl hreset
  | read | crcInit | crcUpd | rxEos | rxFlush | cfgBusy => exact ⟨rfl, rfl⟩

/-- R22. -/
theorem Effect.crcAcc {i : Instr} {s t : State} (h : Effect i s t) (hinit : i ≠ .crcInit) (hupd : ∀ b, i ≠ .crcUpd b)
    (hreset : i ≠ .sysReset) : t.crcAcc = s.crcAcc := by
  cases h with
  | receive hi hr =>
    obtain ⟨-, -, -, hacc, -⟩ := Rx.receiveAll_frame hr
    exact hacc
  | crcInit => exact absurd rfl hinit
  | crcUpd b => exact absurd rfl (hupd b)
  | sysReset => exact absurd rfl hreset
  | read | rxEos | rxFlush | cfgBusy | cfgWrite => rfl

/-- R25: only received bytes and the reset touch `RX_BUF`; without them `RX_LEN` stays or becomes 0. -/
theorem Effect.rxBuf {i : Instr} {s t : State} (h : Effect i s t) (hi : receivedBytes i = none)
    (hreset : i ≠ .sysReset) : t.rxBuf = s.rxBuf ∧ (t.rxLen = s.rxLen ∨ t.rxLen = 0#9) := by
  cases h with
  | receive hbs => simp [hi] at hbs
  | sysReset => exact absurd rfl hreset
  | rxEos | rxFlush => exact ⟨rfl, .inr rfl⟩
  | read | crcInit | crcUpd | cfgBusy | cfgWrite => exact ⟨rfl, .inl rfl⟩

/-- R116. -/
theorem Effect.reassembler {i : Instr} {s t : State} (h : Effect i s t) (hi : receivedBytes i = none)
    (heos : i ≠ .rxEos) (hflush : i ≠ .rxFlush) (hreset : i ≠ .sysReset) :
    t.rxState = s.rxState ∧ t.rxLen = s.rxLen ∧ t.rxTarget = s.rxTarget ∧ t.rxBuf = s.rxBuf := by
  cases h with
  | receive hbs => simp [hi] at hbs
  | rxEos => exact absurd rfl heos
  | rxFlush => exact absurd rfl hflush
  | sysReset => exact absurd rfl hreset
  | read | crcInit | crcUpd | cfgBusy | cfgWrite => exact ⟨rfl, rfl, rfl, rfl⟩

end Sys2Proof.Proofs.Effects
end

/-! A step changes the input and runs at most one instruction. -/

section
namespace Sys2Proof.Proofs.Stepping

open Sys2Proof.Machine

/-- Where a step answers a next state, it took something from the input and then ran one instruction or none. -/
theorem step_next_cases {s t : State} (h : step s = .next t) :
    ∃ ts, t = { s with input := ts } ∨ ∃ i, exec i { s with input := ts } = .next t := by
  cases hs : s.input with
  | nil =>
    rw [step_of_no_input hs] at h
    cases h
    exact ⟨s.input, .inl rfl⟩
  | cons x ts =>
    cases hd : decode x with
    | instr i rest => exact ⟨_, .inr ⟨i, step_of_instr hs hd ▸ h⟩⟩
    | instead i rest => exact ⟨_, .inr ⟨i, step_of_instead hs hd ▸ h⟩⟩
    | empty =>
      rw [step_of_empty hs hd] at h
      cases h
      exact ⟨ts, .inl rfl⟩

end Sys2Proof.Proofs.Stepping
end

/-! The two fields most instructions never look at: `CRC_ACC` (R22) and the bytes of `RX_BUF` (R25). -/

section
namespace Sys2Proof.Proofs.Hidden

open Sys2Proof.Machine
open Sys2Proof.Safety
open Sys2Proof.Laws
open Sys2Proof.Proofs.Effects

/-- The state with its accumulator and its buffer changed. -/
def mapHidden (f : Word → Word) (g : List Host.Cell → List Host.Cell) (s : State) : State :=
  { s with crcAcc := f s.crcAcc, rxBuf := g s.rxBuf }

section
variable (f : Word → Word) (g : List Host.Cell → List Host.Cell) (s : State)

@[simp] theorem mapHidden_params : (mapHidden f g s).params = s.params := rfl
@[simp] theorem mapHidden_rxState : (mapHidden f g s).rxState = s.rxState := rfl

theorem execTxBuild_mapHidden (adr cmd : Byte) (p : List Byte) :
    execTxBuild adr cmd p (mapHidden f g s) = mapNext (mapHidden f g) (execTxBuild adr cmd p s) := by
  unfold execTxBuild
  split <;> rfl

theorem execFpParse_mapHidden (bs : List Byte) :
    execFpParse bs (mapHidden f g s) = mapNext (mapHidden f g) (execFpParse bs s) := by
  unfold execFpParse
  cases parseFrame bs <;> rfl

theorem answerTlv_mapHidden (bs : List Byte) :
    answerTlv bs (mapHidden f g s) = mapNext (mapHidden f g) (answerTlv bs s) := by
  unfold answerTlv
  cases decodeTlv bs <;> rfl

theorem execTdFix_mapHidden (bs : List Byte) :
    execTdFix bs (mapHidden f g s) = mapNext (mapHidden f g) (execTdFix bs s) := by
  unfold execTdFix
  rw [mapHidden_params]
  cases decodeFix s.params bs <;> rfl

theorem execCfgWr_mapHidden (v : Byte) :
    execCfgWr v (mapHidden f g s) = mapNext (mapHidden f g) (execCfgWr v s) := by
  unfold execCfgWr
  rw [mapHidden_rxState]
  cases s.rxState <;> rfl

/-- R22, R25: an instruction that receives nothing and is none of the CRC accumulator's own sees neither field. -/
theorem exec_mapHidden {i : Instr} (hi : receivedBytes i = none) (hinit : i ≠ .crcInit) (hupd : ∀ b, i ≠ .crcUpd b)
    (hrd : i ≠ .crcRd) (hreset : i ≠ .sysReset) :
    exec i (mapHidden f g s) = mapNext (mapHidden f g) (exec i s) := by
  cases i with
  | crcInit => exact absurd rfl hinit
  | crcUpd b => exact absurd rfl (hupd b)
  | crcRd => exact absurd rfl hrd
  | sysReset => exact absurd rfl hreset
  | rxByte | rxChunk | wireLs | wireFxIn => cases hi
  | txBuild adr cmd p => exact execTxBuild_mapHidden f g s adr cmd p
  | fpParse bs => exact execFpParse_mapHidden f g s bs
  | tdTlv bs => exact answerTlv_mapHidden f g s bs
  | wireTlvRec fa ph tid rssi => exact answerTlv_mapHidden f g s (tlvRecordBytes fa ph tid rssi)
  | tdFix bs => exact execTdFix_mapHidden f g s bs
  | cfgWr v => exact execCfgWr_mapHidden f g s v
  | _ => rfl

/-- The start of a frame looks at neither field. -/
theorem beginFrame_mapHidden (b : Byte) : beginFrame b (mapHidden f g s) = mapHidden f g (beginFrame b s) := by
  cases hs : s.rxState <;> simp [beginFrame, mapHidden, hs]

end

/-! The accumulator alone. -/

/-- The state with another value in `CRC_ACC`. -/
def setAcc (v : Word) (s : State) : State := { s with crcAcc := v }

/-- What a reception answers, with another value in `CRC_ACC`. -/
def setAccResult (v : Word) (r : State × List Item) : State × List Item := (setAcc v r.1, r.2)

variable (v : Word)

@[simp] theorem setAcc_rxLen (s : State) : (setAcc v s).rxLen = s.rxLen := rfl
@[simp] theorem setAcc_rxTarget (s : State) : (setAcc v s).rxTarget = s.rxTarget := rfl

theorem memRead_setAcc (a n : Nat) (s : State) : memRead a n (setAcc v s) = memRead a n s := rfl

theorem afterStore_setAcc (b : Byte) (s : State) : Rx.afterStore b (setAcc v s) = setAcc v (Rx.afterStore b s) := by
  have hbegin : beginFrame b (setAcc v s) = setAcc v (beginFrame b s) := beginFrame_mapHidden (fun _ => v) id s b
  unfold Rx.afterStore
  rw [hbegin]
  rfl

theorem completeFrame_setAcc (s : State) :
    completeFrame (setAcc v s) = (completeFrame s).map (setAccResult v) := by
  unfold completeFrame
  rw [setAcc_rxLen, setAcc_rxTarget, memRead_setAcc]
  split
  · cases memRead 0 s.rxLen.toNat s <;> rfl
  · rfl

theorem receiveByte_setAcc (b : Byte) (s : State) :
    receiveByte b (setAcc v s) = (receiveByte b s).map (setAccResult v) := by
  rw [Rx.receiveByte_eq, Rx.receiveByte_eq, afterStore_setAcc, completeFrame_setAcc, setAcc_rxLen]
  split <;> rfl

theorem receiveAll_setAcc (bs : List Byte) (s : State) :
    receiveAll bs (setAcc v s) = (receiveAll bs s).map (setAccResult v) := by
  induction bs generalizing s with
  | nil => rfl
  | cons b bs ih =>
    rw [Rx.receiveAll_cons, Rx.receiveAll_cons, receiveByte_setAcc]
    cases receiveByte b s with
    | error e => rfl
    | ok p =>
      simp only [Except.map, setAccResult, ih]
      cases receiveAll bs p.1 <;> rfl

/-- R22: the reassembler does not see the accumulator. -/
theorem deliver_setAcc (bs : List Byte) (s : State) :
    deliver (receiveAll bs (setAcc v s)) = mapNext (setAcc v) (deliver (receiveAll bs s)) := by
  rw [receiveAll_setAcc]
  cases receiveAll bs s <;> rfl

/-- R22. -/
theorem exec_setAcc {i : Instr} (s : State) (hinit : i ≠ .crcInit) (hupd : ∀ b, i ≠ .crcUpd b) (hrd : i ≠ .crcRd)
    (hreset : i ≠ .sysReset) : exec i (setAcc v s) = mapNext (setAcc v) (exec i s) := by
  cases hi : receivedBytes i with
  | none => exact exec_mapHidden (fun _ => v) id s hi hinit hupd hrd hreset
  | some bs => rw [exec_of_receivedBytes hi, exec_of_receivedBytes hi, deliver_setAcc]

end Sys2Proof.Proofs.Hidden
end

/-! Stale bytes (R25, R223): two runs side by side, from states that differ only in them. -/

section
namespace Sys2Proof.Proofs.Stale

open Sys2Proof.Machine
open Sys2Proof.Safety
open Sys2Proof.Laws
open Sys2Proof.Proofs.Effects
open Sys2Proof.Proofs.Hidden

/-- The state with other contents of `RX_BUF`. -/
def setBuf (m : List Host.Cell) (s : State) : State := { s with rxBuf := m }

@[simp] theorem setBuf_rxLen (m : List Host.Cell) (s : State) : (setBuf m s).rxLen = s.rxLen := rfl
@[simp] theorem setBuf_rxTarget (m : List Host.Cell) (s : State) : (setBuf m s).rxTarget = s.rxTarget := rfl
@[simp] theorem setBuf_rxBuf (m : List Host.Cell) (s : State) : (setBuf m s).rxBuf = m := rfl

theorem sameButStale_iff {s t : State} :
    SameButStale s t ↔ ∃ m, t = setBuf m s ∧ ∀ a, a < s.rxLen.toNat → readByte s.rxBuf a = readByte m a := by
  constructor
  · rintro ⟨hrest, hlive⟩
    exact ⟨t.rxBuf, (congrArg (setBuf t.rxBuf) hrest).symm, hlive⟩
  · rintro ⟨m, rfl, hlive⟩
    exact ⟨rfl, hlive⟩

/-- With `RX_LEN` 0 every byte of `RX_BUF` is stale. -/
theorem sameButStale_setBuf_of_empty {s : State} (m : List Host.Cell) (h : s.rxLen = 0#9) :
    SameButStale s (setBuf m s) :=
  ⟨rfl, fun a ha => by simp [h] at ha⟩

theorem sameButStale_refl (s : State) : SameButStale s s := ⟨rfl, fun _ _ => rfl⟩

/-! Instructions that receive nothing. -/

/-- R25: an instruction that receives nothing never looks into `RX_BUF`. -/
theorem exec_setBuf {i : Instr} (m : List Host.Cell) (s : State) (hi : receivedBytes i = none) (hreset : i ≠ .sysReset) :
    exec i (setBuf m s) = mapNext (setBuf m) (exec i s) := by
  by_cases hacc : i = .crcInit ∨ (∃ b, i = .crcUpd b) ∨ i = .crcRd
  · obtain rfl | ⟨b, rfl⟩ | rfl := hacc <;> rfl
  · simp only [not_or, not_exists] at hacc
    obtain ⟨hinit, hupd, hrd⟩ := hacc
    exact exec_mapHidden id (fun _ => m) s hi hinit hupd hrd hreset

theorem indistinguishable_mapNext {g : State → State} {r : Result}
    (h : ∀ u, r = .next u → SameButStale u (g u)) : Indistinguishable r (mapNext g r) := by
  cases r with
  | next u => exact h u rfl
  | fault e => rfl
  | refused e => rfl

theorem exec_indistinguishable_of_no_bytes {i : Instr} {s t : State} (h : SameButStale s t)
    (hi : receivedBytes i = none) (hreset : i ≠ .sysReset) : Indistinguishable (exec i s) (exec i t) := by
  obtain ⟨m, rfl, hlive⟩ := sameButStale_iff.1 h
  rw [exec_setBuf m s hi hreset]
  refine indistinguishable_mapNext (fun u hu => ?_)
  obtain ⟨hbuf, hlen | hlen⟩ := (exec_effect hu).rxBuf hi hreset
  · exact ⟨rfl, by simpa [hbuf, hlen] using hlive⟩
  · exact sameButStale_setBuf_of_empty m hlen

/-- R167: the reset leaves nothing of the old buffer. -/
theorem execSysReset_eq_of_sameButStale {s t : State} (h : SameButStale s t) : execSysReset s = execSysReset t := by
  obtain ⟨m, rfl, -⟩ := sameButStale_iff.1 h
  rfl

/-! Receiving. -/

/-- Two receptions the host cannot tell apart: the same items, or the same fault. -/
def SameReception : Except Fault (State × List Item) → Except Fault (State × List Item) → Prop
  | .ok (s, items), .ok (t, items') => SameButStale s t ∧ items = items'
  | .error e, .error e' => e = e'
  | _, _ => False

/-- The byte stored at `RX_LEN` is one more live byte, the same in both. -/
theorem afterStore_sameButStale {s t : State} (b : Byte) (h : SameButStale s t) :
    SameButStale (Rx.afterStore b s) (Rx.afterStore b t) := by
  obtain ⟨m, rfl, hlive⟩ := sameButStale_iff.1 h
  have hbegin : beginFrame b (setBuf m s) = setBuf m (beginFrame b s) := beginFrame_mapHidden id (fun _ => m) s b
  refine sameButStale_iff.2 ⟨writeByte m s.rxLen.toNat b, by unfold Rx.afterStore; rw [hbegin]; rfl, fun a ha => ?_⟩
  rw [Rx.afterStore_rxBuf]
  by_cases hx : a = s.rxLen.toNat
  · simp [hx]
  · rw [Rx.afterStore_rxLen] at ha
    have hlt : a < s.rxLen.toNat := by bv_omega
    rw [Memory.readByte_writeByte_other _ _ hx, Memory.readByte_writeByte_other _ _ hx, hlive a hlt]

/-- A complete frame is read out of the live bytes only, and all bytes are stale after it. -/
theorem completeFrame_sameReception {s t : State} (h : SameButStale s t) :
    SameReception (completeFrame s) (completeFrame t) := by
  obtain ⟨m, rfl, hlive⟩ := sameButStale_iff.1 h
  have hread : memRead 0 s.rxLen.toNat (setBuf m s) = memRead 0 s.rxLen.toNat s := by
    have : readRange m 0 s.rxLen.toNat = readRange s.rxBuf 0 s.rxLen.toNat :=
      Memory.readRange_congr (fun x _ hx => (hlive x (by omega)).symm)
    simp only [memRead, setBuf_rxBuf, this]
  unfold completeFrame
  rw [setBuf_rxLen, setBuf_rxTarget, hread]
  split
  · cases memRead 0 s.rxLen.toNat s with
    | error e => rfl
    | ok f => exact ⟨sameButStale_setBuf_of_empty m rfl, rfl⟩
  · exact ⟨h, rfl⟩

theorem receiveByte_sameReception {s t : State} (b : Byte) (h : SameButStale s t) :
    SameReception (receiveByte b s) (receiveByte b t) := by
  have hlen : t.rxLen = s.rxLen := by
    obtain ⟨m, rfl, -⟩ := sameButStale_iff.1 h
    rfl
  rw [Rx.receiveByte_eq, Rx.receiveByte_eq, hlen]
  split
  · exact completeFrame_sameReception (afterStore_sameButStale b h)
  · rfl

/-- Putting the same items in front keeps two receptions alike. -/
theorem SameReception.prepend {r r' : Except Fault (State × List Item)} (h : SameReception r r') (items : List Item) :
    SameReception (r.map (fun p => (p.1, items ++ p.2))) (r'.map (fun p => (p.1, items ++ p.2))) := by
  cases r <;> cases r'
  case ok.ok p p' =>
    obtain ⟨hstate, hitems⟩ := h
    exact ⟨hstate, congrArg (items ++ ·) hitems⟩
  case error.error => exact h
  all_goals exact h.elim

theorem receiveAll_sameReception {s t : State} (bs : List Byte) (h : SameButStale s t) :
    SameReception (receiveAll bs s) (receiveAll bs t) := by
  induction bs generalizing s t with
  | nil => exact ⟨h, rfl⟩
  | cons b bs ih =>
    have hb := receiveByte_sameReception b h
    rw [Rx.receiveAll_cons, Rx.receiveAll_cons]
    cases hs : receiveByte b s <;> cases ht : receiveByte b t <;> rw [hs, ht] at hb
    case ok.ok p p' =>
      obtain ⟨hstate, hitems⟩ := hb
      simp only [← hitems]
      exact (ih hstate).prepend p.2
    case error.error => exact hb
    all_goals exact hb.elim

theorem deliver_indistinguishable {r r' : Except Fault (State × List Item)} (h : SameReception r r') :
    Indistinguishable (deliver r) (deliver r') := by
  cases r <;> cases r'
  case ok.ok p p' =>
    obtain ⟨hstate, hitems⟩ := h
    obtain ⟨m, hm, hlive⟩ := sameButStale_iff.1 hstate
    exact sameButStale_iff.2 ⟨m, by rw [hm, hitems]; rfl, hlive⟩
  case error.error => exact h
  all_goals exact h.elim

/-- R223: no instruction lets the host see a stale byte. -/
theorem exec_indistinguishable {s t : State} (h : SameButStale s t) (i : Instr) :
    Indistinguishable (exec i s) (exec i t) := by
  cases hi : receivedBytes i with
  | some bs =>
    rw [exec_of_receivedBytes hi, exec_of_receivedBytes hi]
    exact deliver_indistinguishable (receiveAll_sameReception bs h)
  | none =>
    by_cases hreset : i = .sysReset
    · subst hreset
      show Indistinguishable (execSysReset s) (execSysReset t)
      rw [execSysReset_eq_of_sameButStale h]
      exact sameButStale_refl _
    · exact exec_indistinguishable_of_no_bytes h hi hreset

end Sys2Proof.Proofs.Stale
end

/-! The obligations on the state: O1 to O3, O44 to O46 and O52. -/

section
namespace Sys2Proof.Proofs.StateRules

open Sys2Proof.Machine
open Sys2Proof.Safety
open Sys2Proof.Laws
open Sys2Proof.Proofs.Effects
open Sys2Proof.Proofs.Stepping

/-- R21, R165: `CFG` has two bits. -/
theorem cfgByte_lt (s : State) : (cfgByte s).toNat < 4 := by
  unfold cfgByte
  cases s.dialect <;> cases s.crcCheckEn <;> decide

theorem inv_resetWith (p : Params) : Inv (State.resetWith p) := Rx.inv_of_idle rfl rfl rfl rfl

/-- The operations still to come are no part of the invariant. -/
theorem inv_setInput {s : State} (h : Inv s) (ts : List Transfer) : Inv { s with input := ts } :=
  Rx.inv_congr h rfl rfl rfl rfl rfl

/-- Settles O1, by the reset values and the two bits of `CFG`. -/
theorem resetLeavesSpecValues : Obligations.ResetLeavesSpecValues := by
  unfold Obligations.ResetLeavesSpecValues
  refine ⟨fun p => ?_, fun s => ?_, rfl⟩
  · exact ⟨rfl, rfl, rfl, rfl, rfl, rfl, cfgByte (State.resetWith p), rfl, cfgByte_lt _⟩
  · exact ⟨_, rfl, rfl, rfl, rfl, rfl, rfl, rfl⟩

/-- Settles O2: reset leaves the unit `Idle` and empty over an empty buffer. -/
theorem resetMeetsInvariant : Obligations.ResetMeetsInvariant := by
  unfold Obligations.ResetMeetsInvariant
  exact ⟨inv_resetWith, inv_resetWith Params.default⟩

/-- Settles O3: fetching touches the input only, and every effect of an instruction keeps the invariant. -/
theorem stepKeepsInvariant : Obligations.StepKeepsInvariant := by
  unfold Obligations.StepKeepsInvariant
  intro s t hs h
  obtain ⟨ts, rfl | ⟨i, hi⟩⟩ := step_next_cases h
  · exact inv_setInput hs ts
  · exact (exec_effect hi).keeps_inv (inv_setInput hs ts)

/-- Settles O44: the instructions outside the CRC accumulator's own commute with a change of `CRC_ACC`, and none of
their effects writes it. -/
theorem accumulatorIsPrivate : Obligations.AccumulatorIsPrivate := by
  unfold Obligations.AccumulatorIsPrivate
  intro i s v hinit hupd hrd hreset
  constructor
  · exact Hidden.exec_setAcc v s hinit hupd hrd hreset
  · intro t h
    exact (exec_effect h).crcAcc hinit hupd hreset

/-- Settles O45, by the effects an instruction can have. -/
theorem onlyCfgWriteChangesCfg : Obligations.OnlyCfgWriteChangesCfg := by
  unfold Obligations.OnlyCfgWriteChangesCfg
  intro i s t h hcfg hreset
  exact (exec_effect h).cfg hcfg hreset

/-- Settles O46, by the effects an instruction can have. -/
theorem onlyRxChangesReassembler : Obligations.OnlyRxChangesReassembler := by
  unfold Obligations.OnlyRxChangesReassembler
  intro i s t h hi heos hflush hreset
  obtain ⟨hstate, hlen, htarget, hbuf⟩ := (exec_effect h).reassembler hi heos hflush hreset
  exact ⟨hstate, hlen, htarget, fun a => by rw [hbuf]⟩

/-- Settles O52, by two runs side by side: received bytes make the same bytes live in both, and the other instructions
never look into `RX_BUF`. -/
theorem staleBytesUnobservable : Obligations.StaleBytesUnobservable := by
  unfold Obligations.StaleBytesUnobservable
  intro s t h i
  exact Stale.exec_indistinguishable h i

end Sys2Proof.Proofs.StateRules
end

/-! Which instructions always complete, and what is kept when one is issued again (R45, R52). -/

section
namespace Sys2Proof.Proofs.Effects

open Sys2Proof.Machine
open Sys2Proof.Safety
open Sys2Proof.Laws

variable {i : Instr} {s : State}

/-! `CFG.WR`, one equation per state of the reassembler (R166). -/

theorem execCfgWr_of_accumulating (v : Byte) (hs : s.rxState = .accumulating) :
    execCfgWr v s = .next (respond [.err (.busy s.rxLen)] s) := by
  simp only [execCfgWr, hs, raise]

theorem execCfgWr_of_idle (v : Byte) (hs : s.rxState = .idle) :
    execCfgWr v s =
      .next (respond [] { s with dialect := dialectOfBit (v.getLsbD 0), crcCheckEn := v.getLsbD 1 }) := by
  simp only [execCfgWr, hs, done]

/-- R166: neither a written `CFG` nor a `Busy` changes what decides between the two. -/
theorem execCfgWr_idempotent (v : Byte) (s : State) : ∃ t, execCfgWr v s = .next t ∧ execCfgWr v t = .next t := by
  cases hs : s.rxState with
  | idle => exact ⟨_, execCfgWr_of_idle v hs, execCfgWr_of_idle v hs⟩
  | accumulating => exact ⟨_, execCfgWr_of_accumulating v hs, execCfgWr_of_accumulating v hs⟩

/-- R27, R45: no reading instruction sees the outcome list of the operation before it. -/
theorem exec_respond_of_readsOnly (hi : readsOnly i = true) (items : List Item) (s : State) :
    exec i (respond items s) = exec i s := by
  cases i with
  | crcInit | crcUpd | rxByte | rxChunk | rxEos | rxFlush | cfgWr | sysReset | wireLs | wireFxIn => cases hi
  | _ => rfl

/-! Completion. -/

/-- Faults come from received bytes alone: every other instruction completes in every state. -/
theorem exec_completes_of_no_bytes (hi : receivedBytes i = none) (s : State) : ∃ t, exec i s = .next t := by
  by_cases hread : readsOnly i = true
  · obtain ⟨x, hx⟩ := exec_of_readsOnly hread s
    exact ⟨_, hx⟩
  · cases i with
    | rxByte | rxChunk | wireLs | wireFxIn => cases hi
    | crcInit | crcUpd | rxEos | rxFlush | sysReset => exact ⟨_, rfl⟩
    | cfgWr v =>
      obtain ⟨t, ht, -⟩ := execCfgWr_idempotent v s
      exact ⟨t, ht⟩
    | _ => exact absurd rfl hread

/-- R26, R52: under the invariant received bytes cause no fault either, and the invariant holds afterwards. -/
theorem exec_completes_of_inv (hs : Inv s) (i : Instr) : ∃ t, exec i s = .next t ∧ Inv t := by
  have hnext : ∃ t, exec i s = .next t := by
    cases hi : receivedBytes i with
    | none => exact exec_completes_of_no_bytes hi s
    | some bs =>
      obtain ⟨u, items, hu, -⟩ := Rx.receiveAll_inv hs bs
      exact ⟨_, (exec_of_receivedBytes hi s).trans (Ops.deliver_next.2 ⟨u, items, hu, rfl⟩)⟩
  obtain ⟨t, ht⟩ := hnext
  exact ⟨t, ht, (exec_effect ht).keeps_inv hs⟩

end Sys2Proof.Proofs.Effects
end

/-! A step can only stop where the instruction it fetched stops. -/

section
namespace Sys2Proof.Proofs.Stepping

open Sys2Proof.Machine

/-- Where every instruction completes whatever is left of the input, so does the step: no transfer is refused. -/
theorem step_completes {s : State} (h : ∀ ts i, ∃ t, exec i { s with input := ts } = .next t) :
    ∃ t, step s = .next t := by
  cases hs : s.input with
  | nil => exact ⟨s, step_of_no_input hs⟩
  | cons x ts =>
    cases hd : decode x with
    | instr i rest =>
      rw [step_of_instr hs hd]
      exact h _ i
    | instead i rest =>
      rw [step_of_instead hs hd]
      exact h _ i
    | empty => exact ⟨_, step_of_empty hs hd⟩

end Sys2Proof.Proofs.Stepping
end

/-! The obligations on memory and completion: O4 and O48. -/

section
namespace Sys2Proof.Proofs.Completion

open Sys2Proof.Machine
open Sys2Proof.Proofs.Effects
open Sys2Proof.Proofs.Stepping
open Sys2Proof.Proofs.StateRules

/-- Settles O4: received bytes find room and written bytes under the invariant, the other instructions cannot fault, and
a step runs one instruction or none. -/
theorem invariantStateNeverStops : Obligations.InvariantStateNeverStops := by
  unfold Obligations.InvariantStateNeverStops
  intro s hs
  refine ⟨exec_completes_of_inv hs, ?_⟩
  obtain ⟨t, ht⟩ : ∃ t, step s = .next t :=
    step_completes fun ts i => (exec_completes_of_inv (inv_setInput hs ts) i).imp fun _ => And.left
  exact ⟨t, ht, stepKeepsInvariant s t hs ht⟩

/-- Settles O48: a reading instruction changes the outcome list only, which it does not see; each of the other four
finds its own result already in place. -/
theorem readsAndIdempotence : Obligations.ReadsAndIdempotence := by
  unfold Obligations.ReadsAndIdempotence
  constructor
  · intro i s hi
    obtain ⟨x, hx⟩ := exec_of_readsOnly hi s
    exact ⟨[x], hx, (exec_respond_of_readsOnly hi [x] s).trans hx⟩
  · rintro i s (rfl | rfl | rfl | ⟨v, rfl⟩)
    case inr.inr.inr => exact execCfgWr_idempotent v s
    all_goals exact ⟨_, rfl, rfl⟩

end Sys2Proof.Proofs.Completion
end

/-! Received bytes as single operations (R120), and a whole frame arriving at an `Idle` unit (R117 to R119). -/

section
namespace Sys2Proof.Proofs.Arrival

open Sys2Proof.Machine
open Sys2Proof.Safety
open Sys2Proof.Laws
open Sys2Proof.Laws.State
open Sys2Proof.Proofs.Effects

/-! The reassembler does not see the outcome list of the operation before it. -/

/-- What a reception answers, with another outcome list in the state. -/
def respondResult (x : List Item) (r : State × List Item) : State × List Item := (respond x r.1, r.2)

theorem afterStore_respond (x : List Item) (b : Byte) (s : State) :
    Rx.afterStore b (respond x s) = respond x (Rx.afterStore b s) := by
  cases hs : s.rxState <;> simp [Rx.afterStore, beginFrame, respond, hs]

theorem completeFrame_respond (x : List Item) (s : State) :
    completeFrame (respond x s) = (completeFrame s).map (respondResult x) := by
  have hread : memRead 0 s.rxLen.toNat (respond x s) = memRead 0 s.rxLen.toNat s := rfl
  unfold completeFrame
  rw [respond_rxLen, respond_rxTarget, hread]
  split
  · cases memRead 0 s.rxLen.toNat s <;> rfl
  · rfl

theorem receiveByte_respond (x : List Item) (b : Byte) (s : State) :
    receiveByte b (respond x s) = (receiveByte b s).map (respondResult x) := by
  rw [Rx.receiveByte_eq, Rx.receiveByte_eq, afterStore_respond, completeFrame_respond, respond_rxLen]
  split <;> rfl

theorem receiveAll_respond (x : List Item) (bs : List Byte) (s : State) :
    receiveAll bs (respond x s) = (receiveAll bs s).map (respondResult x) := by
  induction bs generalizing s with
  | nil => rfl
  | cons b bs ih =>
    rw [Rx.receiveAll_cons, Rx.receiveAll_cons, receiveByte_respond]
    cases receiveByte b s with
    | error e => rfl
    | ok p =>
      simp only [Except.map, respondResult, ih]
      cases receiveAll bs p.1 <;> rfl

/-- R120: bytes issued one RX.BYTE each leave the state of their reception, but for the outcome list of the last. -/
theorem runOps_rxBytes {bs : List Byte} {s u : State} {items : List Item} (h : receiveAll bs s = .ok (u, items)) :
    ∃ last, runOps (bs.map .rxByte) s = .next (respond last u, items) := by
  induction bs generalizing s u items with
  | nil =>
    cases h
    exact ⟨s.outcome, rfl⟩
  | cons b bs ih =>
    obtain ⟨s', i1, i2, hb, hbs, rfl⟩ := Rx.receiveAll_cons_ok h
    have hexec : exec (.rxByte b) s = .next (respond i1 s') := Ops.deliver_next.2 ⟨s', i1, hb, rfl⟩
    have hrest : receiveAll bs (respond i1 s') = .ok (respond i1 u, i2) := by rw [receiveAll_respond, hbs]; rfl
    obtain ⟨last, hlast⟩ := ih hrest
    exact ⟨last, by simp only [List.map_cons, runOps, hexec, hlast, respond_outcome, respond_respond]⟩

/-! Whole frames. -/

/-- A byte is stored right behind the ones held (R117). -/
theorem readRange_afterStore {s : State} (hs : Inv s) {held : List Byte} (b : Byte)
    (hheld : readRange s.rxBuf 0 s.rxLen.toNat = some held) :
    readRange (Rx.afterStore b s).rxBuf 0 (s.rxLen + 1#9).toNat = some (held ++ [b]) := by
  obtain ⟨-, hlen, -, -⟩ := Rx.inv_target hs b
  rw [hlen, Rx.afterStore_rxBuf]
  refine Memory.readRange_succ _ _ _ ?_ ?_
  · rw [Memory.readRange_writeByte_other b (by omega), hheld]
  · rw [Nat.zero_add, Memory.readByte_writeByte_same]

/-- With the bytes `held` in the buffer, the bytes up to the target yield the one item of the frame and leave the unit
`Idle`. -/
theorem receiveAll_completes {s : State} (hs : Inv s) {held : List Byte} (b : Byte) (bs : List Byte)
    (hheld : readRange s.rxBuf 0 s.rxLen.toNat = some held)
    (htarget : (beginFrame b s).rxTarget.toNat = s.rxLen.toNat + 1 + bs.length) :
    ∃ t, receiveAll (b :: bs) s = .ok (t, [frameItem s.crcCheckEn (held ++ b :: bs)]) ∧ t.rxState = .idle := by
  induction bs generalizing s held b with
  | nil =>
    obtain ⟨-, hlen, -, -⟩ := Rx.inv_target hs b
    obtain ⟨hne, -⟩ | ⟨-, f, hf, hr⟩ := Rx.receiveByte_inv hs b
    · exact absurd (BitVec.eq_of_toNat_eq (hlen.trans htarget.symm)) hne
    · obtain rfl : held ++ [b] = f := Option.some.inj ((readRange_afterStore hs b hheld).symm.trans hf)
      exact ⟨_, (receiveAll_singleton b s).trans hr, rfl⟩
  | cons c cs ih =>
    obtain ⟨-, hlen, -, -⟩ := Rx.inv_target hs b
    rw [List.length_cons] at htarget
    obtain ⟨-, hr⟩ | ⟨hdone, -⟩ := Rx.receiveByte_inv hs b
    · have hbegin : beginFrame c (Rx.afterStore b s) = Rx.afterStore b s :=
        beginFrame_accumulating _ c (Rx.afterStore_rxState b s)
      have htarget' : (beginFrame c (Rx.afterStore b s)).rxTarget.toNat =
          (Rx.afterStore b s).rxLen.toNat + 1 + cs.length := by
        rw [hbegin, Rx.afterStore_rxTarget, Rx.afterStore_rxLen]
        omega
      obtain ⟨t, ht, hidle⟩ := ih (Rx.receiveByte_keeps_inv hs hr) c (readRange_afterStore hs b hheld) htarget'
      refine ⟨t, ?_, hidle⟩
      rw [Rx.receiveAll_cons, hr]
      simp [ht, Except.map]
    · rw [← hdone] at htarget
      omega

/-- R119: a frame of the size its first byte declares, arriving at an `Idle` unit, comes out as one item. -/
theorem receiveAll_frame_of_idle {s : State} (hs : Inv s) (hidle : s.rxState = .idle) (b : Byte) (bs : List Byte)
    (hsize : (targetOf s.dialect b).toNat = bs.length + 1) :
    ∃ t, receiveAll (b :: bs) s = .ok (t, [frameItem s.crcCheckEn (b :: bs)]) ∧ t.rxState = .idle := by
  have hlen : s.rxLen = 0#9 := hs.idleLen.1 hidle
  refine receiveAll_completes hs (held := []) b bs (by rw [hlen]; rfl) ?_
  rw [beginFrame_rxTarget_idle s b hidle, hsize, hlen]
  exact Nat.add_comm _ _

/-- An instruction that brings the bytes `b :: bs` does what RX.BYTE of each does; where they are one frame and the unit
is `Idle`, it yields the one item of that frame. -/
theorem exec_received_eq_rxBytes {i : Instr} {s : State} {b : Byte} {bs : List Byte} (hs : Inv s)
    (hi : receivedBytes i = some (b :: bs)) :
    ∃ t items, runOps ((b :: bs).map .rxByte) s = .next (t, items) ∧
      exec i s = .next { t with outcome := items } ∧
      (s.rxState = .idle → (targetOf s.dialect b).toNat = bs.length + 1 →
        t.rxState = .idle ∧ items = [frameItem s.crcCheckEn (b :: bs)]) := by
  obtain ⟨u, items, hu, -⟩ := Rx.receiveAll_inv hs (b :: bs)
  obtain ⟨last, hrun⟩ := runOps_rxBytes hu
  refine ⟨respond last u, items, hrun, ?_, fun hidle hsize => ?_⟩
  · rw [exec_of_receivedBytes hi, hu]
    rfl
  · obtain ⟨t, ht, htidle⟩ := receiveAll_frame_of_idle hs hidle b bs hsize
    obtain ⟨rfl, rfl⟩ : u = t ∧ items = [frameItem s.crcCheckEn (b :: bs)] := by simpa [hu] using ht
    exact ⟨htidle, rfl⟩

end Sys2Proof.Proofs.Arrival
end

/-! The decoder reads back what the encoder writes (R61 to R72), one lemma per operand format and wire format. -/

section
namespace Sys2Proof.Proofs.Formats

open Sys2Proof.Machine
open Sys2Proof.Laws

/-! Bytes behind a run of known length. -/

@[simp] theorem byteAt_append_length (s : List Byte) (b : Byte) (t : List Byte) : byteAt (s ++ b :: t) s.length = b :=
  Bytes.byteAt_append_right s (b :: t) 0

@[simp] theorem byteAt_append_length_succ (s : List Byte) (b c : Byte) (t : List Byte) :
    byteAt (s ++ b :: c :: t) (s.length + 1) = c :=
  Bytes.byteAt_append_right s (b :: c :: t) 1

theorem drop_eq_byteAt_cons {s : List Byte} {n : Nat} (h : n < s.length) : s.drop n = byteAt s n :: s.drop (n + 1) := by
  rw [List.drop_eq_getElem_cons h, byteAt, List.getD_eq_getElem s 0 h]

/-! Operations (R69, R70). -/

theorem takeSeq_encodeSeq (op : Byte) (k : List Byte → Instr) {s : List Byte} (rest : List Byte)
    (h : seqFits s = true) :
    takeSeq op k (lo8 (BitVec.ofNat 16 s.length) :: hi8 (BitVec.ofNat 16 s.length) :: (s ++ rest)) =
      .instr (k s) rest := by
  have hlen : (le16 (lo8 (BitVec.ofNat 16 s.length)) (hi8 (BitVec.ofNat 16 s.length))).toNat = s.length := by
    simp only [seqFits, decide_eq_true_eq] at h
    rw [Bytes.le16_lo8_hi8, BitVec.toNat_ofNat]
    omega
  simp only [takeSeq, hlen]
  simp

theorem takeBuild_encodeBuild (op adr cmd : Byte) {p : List Byte} (rest : List Byte) (h : p.length ≤ 255) :
    takeBuild op (adr :: cmd :: BitVec.ofNat 8 p.length :: (p ++ rest)) = .instr (.txBuild adr cmd p) rest := by
  have hlen : (BitVec.ofNat 8 p.length).toNat = p.length := by
    rw [BitVec.toNat_ofNat]
    omega
  simp only [takeBuild, hlen]
  simp

/-- R73: an unassigned op number is an operation of one byte. -/
theorem decodeOp_reserved {op : Byte} (rest : List Byte) (h : op ∉ assignedOps) :
    decodeOp (op :: rest) = .instr (.reserved op) rest := by
  simp only [decodeOp]
  split
  case h_20 => rfl
  all_goals exact absurd (by decide) h

/-- R69 to R73: every operation, from its string and whatever follows it. -/
theorem decodeOp_encodeBytes {i : Instr} (rest : List Byte) (hwf : wellFormed i = true) (hchan : channelOf i = .op) :
    decodeOp (encodeBytes i ++ rest) = .instr i rest := by
  cases i with
  | crcInit | crcRd | rxEos | rxFlush | rxStat | cfgRd | sysReset | crcUpd | txBuildFx | rxByte | fpStatus | cfgWr => rfl
  | crcBlk | rxChunk | fpParse | fpCheck | tdTlv | tdFix => exact takeSeq_encodeSeq _ _ rest hwf
  | txBuild adr cmd p => exact takeBuild_encodeBuild _ adr cmd rest (of_decide_eq_true hwf)
  | reserved op => exact decodeOp_reserved rest (by simpa [wellFormed] using hwf)
  | _ => cases hchan

/-! Wire formats. -/

theorem decodeLs_lsFrameWith (adr cs lo hi : Byte) {p : List Byte} (rest : List Byte) (h : p.length ≤ 251) :
    decodeLs (lsFrameWith adr cs p lo hi ++ rest) = .instr (.wireLs adr cs p lo hi) rest := by
  have hlen : (lengthByte p.length).toNat = 4 + p.length := Ops.lengthByte_toNat h
  have h4 : 4 + p.length - 4 = p.length := by omega
  have h3 : 4 + p.length - 3 = p.length + 1 := by omega
  have h2 : 4 + p.length - 2 = p.length + 2 := by omega
  simp only [lsFrameWith, lsBody, List.cons_append, List.append_assoc, List.nil_append, decodeLs, hlen, h4, h3, h2]
  simp [Config.lsOverhead, List.drop_append]

theorem decodeFxCmd_fxCommand (m : Byte) (rest : List Byte) :
    decodeFxCmd (fxCommand m ++ rest) = .instr (.wireFxCmd m) rest :=
  if_pos rfl

theorem decodeFxIn_fxInBytes (b0 b1 b2 b3 ant b5 rssi lo hi : Byte) {tid : List Byte} (rest : List Byte)
    (h : tid.length = 10) :
    decodeFxIn (fxInBytes b0 b1 b2 b3 ant b5 rssi tid lo hi ++ rest) =
      .instr (.wireFxIn b0 b1 b2 b3 ant b5 rssi tid lo hi) rest := by
  have h10 := byteAt_append_length tid lo (hi :: rest)
  have h11 := byteAt_append_length_succ tid lo hi rest
  have hdrop := List.drop_length_add_append (l₁ := tid) (l₂ := lo :: hi :: rest) 2
  rw [h] at h10 h11 hdrop
  simp only [fxInBytes, List.cons_append, List.append_assoc, List.nil_append, decodeFxIn, h10, h11,
    List.take_left' h]
  rw [if_pos (by simp only [List.length_append, List.length_cons, h]; omega), hdrop]
  rfl

theorem tidCount_ofNat_header (f p : Bool) {n : Nat} (h : n ≤ 63) :
    tidCount (tlvHeaderByte f p (BitVec.ofNat 6 n)) = n := by
  rw [Bytes.tidCount_header, BitVec.toNat_ofNat]
  omega

theorem decodeTlvRec_tlvRecordBytes (f p : Bool) {tid : List Byte} (rssi : Byte) (rest : List Byte)
    (h : tid.length ≤ 63) :
    decodeTlvRec (tlvRecordBytes f p tid rssi ++ rest) = .instr (.wireTlvRec f p tid rssi) rest := by
  simp only [tlvRecordBytes, List.cons_append, List.append_assoc, List.nil_append, decodeTlvRec,
    tidCount_ofNat_header f p h]
  simp [List.drop_append]

theorem decodeTlvHdr_header (f p : Bool) (n : BitVec 6) (rest : List Byte) :
    decodeTlvHdr (tlvHeaderByte f p n :: rest) = .instr (.wireTlvHdr f p n) rest := by
  simp [decodeTlvHdr]

theorem decodeStatus_unrecognized {b : Byte} (rest : List Byte) (h : b ∉ knownStatuses) :
    decodeStatus (b :: rest) = .instr (.statusUnrecognized b) rest := by
  simp only [decodeStatus]
  split
  case h_8 => rfl
  all_goals exact absurd (by decide) h

/-- R61 to R73: every well-formed instruction, from its bytes on its own channel and whatever follows them. -/
theorem decode_encodeBytes {i : Instr} (rest : List Byte) (hwf : wellFormed i = true) :
    decode { chan := channelOf i, bytes := encodeBytes i ++ rest } = .instr i rest := by
  cases i with
  | wireLs adr cs p lo hi => exact decodeLs_lsFrameWith adr cs lo hi rest (of_decide_eq_true hwf)
  | wireFxCmd m => exact decodeFxCmd_fxCommand m rest
  | wireFxIn b0 b1 b2 b3 ant b5 rssi tid lo hi =>
    exact decodeFxIn_fxInBytes b0 b1 b2 b3 ant b5 rssi lo hi rest (of_decide_eq_true hwf)
  | wireTlvHdr f p n => exact decodeTlvHdr_header f p n rest
  | wireTlvRec f p tid rssi => exact decodeTlvRec_tlvRecordBytes f p rssi rest (of_decide_eq_true hwf)
  | statusSuccess | statusFinish | statusOverTime | statusExtend => rfl
  | statusOverNumber | statusAerialFault | statusParamError => rfl
  | statusUnrecognized b => exact decodeStatus_unrecognized rest (by simpa [wellFormed] using hwf)
  | _ => exact decodeOp_encodeBytes rest hwf rfl

end Sys2Proof.Proofs.Formats
end

/-! What the decoder accepts is what the encoder writes (R61 to R73), channel by channel. -/

section
namespace Sys2Proof.Proofs.Formats

open Sys2Proof.Machine
open Sys2Proof.Laws

/-- On the channel `chan` the bytes `bs` are the encoding of the well-formed `i`, and then `rest`. -/
structure Carries (chan : Channel) (bs : List Byte) (i : Instr) (rest : List Byte) : Prop where
  wf : wellFormed i = true
  chan_eq : channelOf i = chan
  bytes_eq : bs = encodeBytes i ++ rest

theorem Carries.append {chan : Channel} {bs : List Byte} {i : Instr} (h : Carries chan bs i []) (rest : List Byte) :
    Carries chan (bs ++ rest) i rest :=
  ⟨h.wf, h.chan_eq, by rw [h.bytes_eq, List.append_nil]⟩

/-! Operation strings (R69 to R73). -/

/-- All that a string of one byte or more can be read as: an operation, or one cut short. -/
inductive OpReading (bs : List Byte) : Decoded → Prop where
  /-- The string of an operation, or an unassigned op number. -/
  | accepted {i : Instr} {rest : List Byte} (h : Carries .op bs i rest) : OpReading bs (.instr i rest)
  /-- R73: the op byte is refused, and the string goes with it (log 4). -/
  | cutShort {op : Byte} {tail : List Byte} (h : bs = op :: tail) : OpReading bs (.instead (.reserved op) [])

theorem takeByte_reading {op : Byte} {k : Byte → Instr} (hk : ∀ b, Carries .op [op, b] (k b) []) (bs : List Byte) :
    OpReading (op :: bs) (takeByte op k bs) := by
  cases bs with
  | nil => exact .cutShort rfl
  | cons b rest => exact .accepted ((hk b).append rest)

/-- R70: the count says how many bytes of the string are the operand. -/
theorem cons_eq_encodeSeq (op lo hi : Byte) {tail : List Byte} (h : (le16 lo hi).toNat ≤ tail.length) :
    op :: lo :: hi :: tail =
      encodeSeq op (tail.take (le16 lo hi).toNat) ++ tail.drop (le16 lo hi).toNat := by
  simp [encodeSeq, List.length_take, Nat.min_eq_left h]

theorem takeSeq_reading {op : Byte} {k : List Byte → Instr}
    (hk : ∀ s, seqFits s = true → Carries .op (encodeSeq op s) (k s) []) (bs : List Byte) :
    OpReading (op :: bs) (takeSeq op k bs) := by
  unfold takeSeq
  split
  next lo hi tail =>
    split
    next hfit =>
      refine .accepted ?_
      rw [cons_eq_encodeSeq op lo hi hfit]
      refine (hk _ ?_).append _
      have := (le16 lo hi).isLt
      simp only [seqFits, List.length_take, decide_eq_true_eq]
      omega
    next => exact .cutShort rfl
  next => exact .cutShort rfl

theorem takeBuild_reading (bs : List Byte) : OpReading (0x10#8 :: bs) (takeBuild 0x10#8 bs) := by
  unfold takeBuild
  split
  next adr cmd n tail =>
    split
    next hfit =>
      have hlen : (tail.take n.toNat).length = n.toNat := by rw [List.length_take, Nat.min_eq_left hfit]
      refine .accepted ⟨?_, rfl, ?_⟩
      · have := n.isLt
        simp only [wellFormed, hlen, decide_eq_true_eq]
        omega
      · simp [encodeBytes, encodeBuild, hlen]
    next => exact .cutShort rfl
  next => exact .cutShort rfl

/-- R72, row by row of the op numbers. -/
theorem decodeOp_reading (op : Byte) (bs : List Byte) : OpReading (op :: bs) (decodeOp (op :: bs)) := by
  simp only [decodeOp]
  split
  case h_1 | h_3 | h_9 | h_10 | h_11 | h_18 | h_19 => exact .accepted ⟨rfl, rfl, rfl⟩
  case h_2 | h_6 | h_7 | h_14 | h_17 => exact takeByte_reading (fun _ => ⟨rfl, rfl, rfl⟩) bs
  case h_4 | h_8 | h_12 | h_13 | h_15 | h_16 =>
    refine takeSeq_reading (fun _ hfit => ?_) bs
    exact ⟨hfit, rfl, (List.append_nil _).symm⟩
  case h_5 => exact takeBuild_reading bs
  case h_20 =>
    refine .accepted ⟨?_, rfl, rfl⟩
    simp_all [wellFormed, assignedOps]

theorem decodeOp_carries {bs : List Byte} {i : Instr} {rest : List Byte} (h : decodeOp bs = .instr i rest) :
    Carries .op bs i rest := by
  cases bs with
  | nil => cases h
  | cons op tail =>
    have hr := decodeOp_reading op tail
    rw [h] at hr
    cases hr with
    | accepted hc => exact hc

/-- R71: bytes after an operation do not change how it is read. -/
theorem decodeOp_append {bs : List Byte} {i : Instr} {rest : List Byte} (h : decodeOp bs = .instr i rest)
    (more : List Byte) : decodeOp (bs ++ more) = .instr i (rest ++ more) := by
  obtain ⟨hwf, hchan, rfl⟩ := decodeOp_carries h
  rw [List.append_assoc]
  exact decodeOp_encodeBytes (rest ++ more) hwf hchan

/-- R73: a proper start of an operation's string is refused with its op byte. Were it read as an operation, so would the
whole string be, and bytes would be left over. -/
theorem decodeOp_take {i : Instr} {k : Nat} (hwf : wellFormed i = true) (hchan : channelOf i = .op) (hpos : 0 < k)
    (hk : k < (encodeBytes i).length) :
    decodeOp ((encodeBytes i).take k) = .instead (.reserved (byteAt (encodeBytes i) 0)) [] := by
  have hwhole : decodeOp (encodeBytes i) = .instr i [] := by
    simpa using decodeOp_encodeBytes [] hwf hchan
  obtain ⟨k, rfl⟩ : ∃ n, k = n + 1 := ⟨k - 1, by omega⟩
  cases he : encodeBytes i with
  | nil => simp [he] at hk
  | cons op tail =>
    rw [he] at hk hwhole
    rw [List.take_succ_cons, Bytes.byteAt_cons_zero]
    have hr := decodeOp_reading op (tail.take k)
    cases hd : decodeOp (op :: tail.take k) with
    | instr j rest =>
      have hlong := decodeOp_append hd (tail.drop k)
      rw [List.cons_append, List.take_append_drop, hwhole] at hlong
      have hnil : rest ++ tail.drop k = [] := by
        injection hlong with _ hrest
        exact hrest.symm
      have : tail.length ≤ k := List.drop_eq_nil_iff.1 (List.append_eq_nil_iff.1 hnil).2
      simp only [List.length_cons] at hk
      omega
    | instead j rest =>
      rw [hd] at hr
      cases hr with
      | cutShort h =>
        cases h
        rfl
    | empty =>
      rw [hd] at hr
      cases hr

/-! Wire formats. -/

theorem take_append_byteAt_cons {s : List Byte} {n : Nat} (h : n < s.length) :
    s.take n ++ byteAt s n :: s.drop (n + 1) = s := by
  rw [← drop_eq_byteAt_cons h, List.take_append_drop]

theorem take_append_two_bytes {s : List Byte} {n : Nat} (h : n + 1 < s.length) :
    s.take n ++ byteAt s n :: byteAt s (n + 1) :: s.drop (n + 2) = s := by
  rw [← drop_eq_byteAt_cons h, take_append_byteAt_cons (by omega)]

theorem decodeLs_carries {bs : List Byte} {i : Instr} {rest : List Byte} (h : decodeLs bs = .instr i rest) :
    Carries .ls bs i rest := by
  unfold decodeLs at h
  split at h
  next len adr cs tail =>
    split at h
    next hfit =>
      cases h
      obtain ⟨hmin, hfit⟩ := hfit
      simp only [Config.lsOverhead] at hmin
      have := len.isLt
      obtain ⟨n, hn⟩ : ∃ n, len.toNat = 4 + n := ⟨len.toNat - 4, by omega⟩
      have h4 : 4 + n - 4 = n := by omega
      have h3 : 4 + n - 3 = n + 1 := by omega
      have h2 : 4 + n - 2 = n + 2 := by omega
      rw [hn, h2] at hfit
      have hlen : (tail.take n).length = n := by rw [List.length_take]; omega
      have hbyte : lengthByte n = len := BitVec.eq_of_toNat_eq (by rw [Ops.lengthByte_toNat (by omega), hn])
      simp only [hn, h4, h3, h2]
      refine ⟨?_, rfl, ?_⟩
      · simp only [wellFormed, hlen, Config.lsMaxPayload, decide_eq_true_eq]
        omega
      · simp only [encodeBytes, lsFrameWith, lsBody, hlen, hbyte, List.cons_append, List.append_assoc, List.nil_append]
        rw [take_append_two_bytes (by omega)]
    next => cases h
  next => cases h
  next => cases h

/-- All that bytes on the scan command's channel can be: the command, or an operation string (log 14). -/
theorem decodeFxCmd_cases (bs : List Byte) :
    (∃ m rest, bs = fxCommand m ++ rest ∧ decodeFxCmd bs = .instr (.wireFxCmd m) rest) ∨
      decodeFxCmd bs = decodeAsOp bs := by
  unfold decodeFxCmd
  split
  next m lo hi rest =>
    split
    next hcrc => exact .inl ⟨m, rest, by rw [fxCommand, appendCrc, ← hcrc]; rfl, rfl⟩
    next => exact .inr rfl
  next => exact .inr rfl

/-- On another channel no operation string is accepted as a unit of its format. -/
theorem decodeAsOp_ne_instr (bs : List Byte) (i : Instr) (rest : List Byte) : decodeAsOp bs ≠ .instr i rest := by
  unfold decodeAsOp
  split
  next => simp
  next hne => exact hne i rest

theorem decodeFxCmd_carries {bs : List Byte} {i : Instr} {rest : List Byte} (h : decodeFxCmd bs = .instr i rest) :
    Carries .fxCmd bs i rest := by
  obtain ⟨m, tail, rfl, hd⟩ | hd := decodeFxCmd_cases bs
  · rw [hd] at h
    cases h
    exact ⟨rfl, rfl, rfl⟩
  · exact absurd (hd.symm.trans h) (decodeAsOp_ne_instr bs i rest)

theorem decodeFxIn_carries {bs : List Byte} {i : Instr} {rest : List Byte} (h : decodeFxIn bs = .instr i rest) :
    Carries .fxIn bs i rest := by
  unfold decodeFxIn at h
  split at h
  next b0 b1 b2 b3 ant b5 rssi tail =>
    split at h
    next hfit =>
      cases h
      have hlen : (tail.take 10).length = 10 := by rw [List.length_take]; omega
      refine ⟨decide_eq_true hlen, rfl, ?_⟩
      simp only [encodeBytes, fxInBytes, List.cons_append, List.append_assoc, List.nil_append]
      rw [take_append_two_bytes (by omega)]
    next => cases h
  next => cases h
  next => cases h

theorem decodeTlvHdr_carries {bs : List Byte} {i : Instr} {rest : List Byte} (h : decodeTlvHdr bs = .instr i rest) :
    Carries .tlvHdr bs i rest := by
  cases bs with
  | nil => cases h
  | cons b tail =>
    cases h
    exact ⟨rfl, rfl, by simp [encodeBytes]⟩

theorem decodeTlvRec_carries {bs : List Byte} {i : Instr} {rest : List Byte} (h : decodeTlvRec bs = .instr i rest) :
    Carries .tlvRec bs i rest := by
  cases bs with
  | nil => cases h
  | cons b tail =>
    simp only [decodeTlvRec] at h
    split at h
    next hfit =>
      cases h
      have hlen : (tail.take (tidCount b)).length = tidCount b := by rw [List.length_take]; omega
      have hheader : tlvHeaderByte (fastidFlag b) (hasphasefreqFlag b) (BitVec.ofNat 6 (tidCount b)) = b := by
        rw [tidCount, BitVec.ofNat_toNat, BitVec.setWidth_eq, Bytes.header_of_fields]
      refine ⟨?_, rfl, ?_⟩
      · simp only [wellFormed, hlen, decide_eq_true_eq]
        exact Bytes.tidCount_le b
      · simp only [encodeBytes, tlvRecordBytes, hlen, hheader, List.cons_append, List.append_assoc, List.nil_append]
        rw [take_append_byteAt_cons hfit]
    next => cases h

theorem decodeStatus_carries {bs : List Byte} {i : Instr} {rest : List Byte} (h : decodeStatus bs = .instr i rest) :
    Carries .status bs i rest := by
  cases bs with
  | nil => cases h
  | cons b tail =>
    simp only [decodeStatus] at h
    split at h <;> cases h
    case h_8 => exact ⟨by simp_all [wellFormed, knownStatuses], rfl, rfl⟩
    all_goals exact ⟨rfl, rfl, rfl⟩

/-- What the decoder accepts is well-formed, on its own channel, and stands encoded at the head of the bytes. -/
theorem decode_carries {t : Transfer} {i : Instr} {rest : List Byte} (h : decode t = .instr i rest) :
    Carries t.chan t.bytes i rest := by
  obtain ⟨chan, bs⟩ := t
  cases chan with
  | op => exact decodeOp_carries h
  | ls => exact decodeLs_carries h
  | fxCmd => exact decodeFxCmd_carries h
  | fxIn => exact decodeFxIn_carries h
  | tlvHdr => exact decodeTlvHdr_carries h
  | tlvRec => exact decodeTlvRec_carries h
  | status => exact decodeStatus_carries h

end Sys2Proof.Proofs.Formats
end

/-! The checksum's residue (R98 item 4): eight iterations move a word right by one byte where its low byte is zero. -/

section
namespace Sys2Proof.Proofs.Residue

open Sys2Proof.Machine
open Sys2Proof.Laws

theorem crcShifts_of_low_bits_zero {n : Nat} {a : Word} (h : ∀ i < n, a.getLsbD i = false) :
    crcShifts n a = a >>> n := by
  induction n generalizing a with
  | zero => simp
  | succ n ih =>
    have hshift : crcShift a = a >>> 1 := if_neg (by rw [h 0 n.succ_pos]; exact Bool.false_ne_true)
    have hlow : ∀ i < n, (a >>> 1).getLsbD i = false := fun i hi => by
      rw [BitVec.getLsbD_ushiftRight, Nat.add_comm]
      exact h (i + 1) (by omega)
    rw [Crc.crcShifts_succ, hshift, ih hlow, ← BitVec.shiftRight_add, Nat.add_comm]

/-- The accumulator's own low byte brings its high byte down. -/
theorem crcStep_lo8 (a : Word) : crcStep a (lo8 a) = a >>> 8 := by
  have hlow : ∀ i < 8, (a ^^^ (lo8 a).setWidth 16).getLsbD i = false := fun i hi => by
    simp [lo8, hi, show i < 16 by omega]
  rw [crcStep, crcShifts_of_low_bits_zero hlow]
  ext i hi
  simp [lo8]

/-- R98 item 4. -/
theorem crc16_appendCrc (body : List Byte) : crc16 (appendCrc body) = 0x0000#16 := by
  have hhi : hi8 (crc16 body) = lo8 (crc16 body >>> 8) := rfl
  rw [appendCrc, Crc.crc16_append, crcBytes, Crc.crcFrom_cons, crcStep_lo8, Crc.crcFrom_cons, hhi, crcStep_lo8,
    Crc.crcFrom_nil, ← BitVec.shiftRight_add]
  exact BitVec.ushiftRight_eq_zero (Nat.le_refl _)

end Sys2Proof.Proofs.Residue
end

/-! TD.TLV over one record (R152). -/

section
namespace Sys2Proof.Proofs.Records

open Sys2Proof.Machine
open Sys2Proof.Laws

theorem decodeTlv_record (f p : Bool) {tid : List Byte} (rssi : Byte) (h : tid.length ≤ 63) :
    decodeTlv (tlvRecordBytes f p tid rssi) =
      .ok [{ tid := tid, rssi := rssi, antenna := none, fastid := f, hasphasefreq := p }] := by
  have hrecord := Td.tlvFrom_record (fuel := (tlvRecordBytes f p tid rssi).length) f p tid rssi [] 0 [] h (by simp)
  rw [List.append_nil] at hrecord
  exact (Td.decodeTlv_eq _).trans hrecord

theorem decodeTlv_bad_header {h : Byte} {rest : List Byte} (hshort : (h :: rest).length < 2 + tidCount h) :
    decodeTlv (h :: rest) = .error (.malformedPayload 0 (tidCount h) 0) :=
  (Td.decodeTlv_eq _).trans (Td.tlvFrom_bad h rest 0 [] hshort (Nat.le_refl _))

theorem answerTlv_of_ok {bs : List Byte} {rs : List TagRecord} (h : decodeTlv bs = .ok rs) (s : State) :
    answerTlv bs s = .next { s with outcome := [.value (.records rs)] } := by
  rw [answerTlv, h]
  rfl

theorem answerTlv_of_error {bs : List Byte} {e : Err} (h : decodeTlv bs = .error e) (s : State) :
    answerTlv bs s = .next { s with outcome := [.err e] } := by
  rw [answerTlv, h]
  rfl

end Sys2Proof.Proofs.Records
end

/-! Bytes that are no unit of their channel's format (R62, R67, R73, R75; log 14). -/

section
namespace Sys2Proof.Proofs.Formats

open Sys2Proof.Machine
open Sys2Proof.Laws
open Sys2Proof.Proofs.Stepping

/-- R62, R127: a Length byte below 4, or fewer bytes than it declares, are received all the same. -/
theorem decodeLs_unfinished {len : Byte} {rest : List Byte} (h : len.toNat ≤ 3 ∨ rest.length < len.toNat) :
    decodeLs (len :: rest) = .instead (.rxChunk (len :: rest)) [] := by
  unfold decodeLs
  split
  next l adr cs tail heq =>
    cases heq
    simp only [List.length_cons] at h
    exact if_neg (by simp only [Config.lsOverhead]; omega)
  next heq => cases heq
  next => rfl

theorem decodeFxIn_unfinished {bs : List Byte} (hpos : 0 < bs.length) (h : bs.length < 19) :
    decodeFxIn bs = .instead (.rxChunk bs) [] := by
  unfold decodeFxIn
  split
  next =>
    simp only [List.length_cons] at h
    exact if_neg (by omega)
  next => simp at hpos
  next => rfl

theorem decodeTlvRec_unfinished {h : Byte} {rest : List Byte} (hshort : (h :: rest).length < 2 + tidCount h) :
    decodeTlvRec (h :: rest) = .instead (.tdTlv (h :: rest)) [] := by
  simp only [List.length_cons] at hshort
  exact if_neg (by omega)

theorem decodeFxCmd_eq_decodeAsOp {bs : List Byte} (h : ∀ m, ¬ fxCommand m <+: bs) :
    decodeFxCmd bs = decodeAsOp bs := by
  obtain ⟨m, rest, rfl, -⟩ | hd := decodeFxCmd_cases bs
  · exact absurd ⟨rest, rfl⟩ (h m)
  · exact hd

/-- Log 14: bytes read as an operation string on another channel step as on the operations' own. -/
theorem step_of_decodeAsOp {s : State} {chan : Channel} {bs : List Byte} {ts : List Transfer}
    (hs : s.input = { chan := chan, bytes := bs } :: ts) (hd : decode { chan := chan, bytes := bs } = decodeAsOp bs) :
    step s = step { s with input := { chan := .op, bytes := bs } :: ts } := by
  have hs' : ({ s with input := { chan := .op, bytes := bs } :: ts } : State).input =
    { chan := .op, bytes := bs } :: ts := rfl
  unfold decodeAsOp at hd
  cases hop : decodeOp bs with
  | instr i rest =>
    rw [hop] at hd
    rw [step_of_instead hs hd, step_of_instr hs' hop]
  | instead i rest =>
    rw [hop] at hd
    rw [step_of_instead hs hd, step_of_instead hs' hop]
  | empty =>
    rw [hop] at hd
    rw [step_of_empty hs hd, step_of_empty hs' hop]

end Sys2Proof.Proofs.Formats
end

/-! The obligations on the encoding and on the table's wire rows: O38 to O43, O53 to O55 and O57. -/

section
namespace Sys2Proof.Proofs.Encoding

open Sys2Proof.Machine
open Sys2Proof.Laws
open Sys2Proof.Proofs.Arrival
open Sys2Proof.Proofs.Formats
open Sys2Proof.Proofs.Records
open Sys2Proof.Proofs.Stepping

/-- Settles O53, format by format: a count says how many bytes of what follows are the operand. -/
theorem decodeInvertsEncode : Obligations.DecodeInvertsEncode := by
  unfold Obligations.DecodeInvertsEncode
  intro i rest hwf
  exact decode_encodeBytes rest hwf

/-- Settles O54, channel by channel: the operand's length fits the count it was read by. -/
theorem encodeInvertsDecode : Obligations.EncodeInvertsDecode := by
  unfold Obligations.EncodeInvertsDecode
  rintro ⟨chan, bs⟩ i rest h
  obtain ⟨hwf, rfl, rfl⟩ := decode_carries h
  exact ⟨hwf, rfl⟩

/-- Settles O38: an arriving frame is the reception of its bytes, and the target its first byte sets is its length. -/
theorem wireLsArrives : Obligations.WireLsArrives := by
  unfold Obligations.WireLsArrives
  refine ⟨fun s adr cs lo hi p hs hp => ?_, fun s len rest ts hin hshort => ?_⟩
  · obtain ⟨t, items, hrun, hexec, hwhole⟩ := exec_received_eq_rxBytes (i := .wireLs adr cs p lo hi) hs rfl
    refine ⟨lengthByte p.length, _, t, items, Ops.lengthByte_toNat hp, rfl, hrun, hexec, fun hidle hls => ?_⟩
    rw [← Ops.frameItem_eq]
    refine hwhole hidle ?_
    rw [hls, Rx.targetOf_ls, Ops.lengthByte_toNat hp]
    simp only [List.append_eq, List.length_append, List.length_cons, List.length_nil]
    omega
  · exact step_of_instead hin (decodeLs_unfinished hshort)

/-- Settles O39: an arriving frame is the reception of its bytes, and every first byte sets a target of 19. -/
theorem wireFxInArrives : Obligations.WireFxInArrives := by
  unfold Obligations.WireFxInArrives
  refine ⟨fun s b0 b1 b2 b3 ant b5 rssi lo hi tid hs htid => ?_, fun s bs ts hin hpos hshort => ?_⟩
  · obtain ⟨t, items, hrun, hexec, hwhole⟩ :=
      exec_received_eq_rxBytes (i := .wireFxIn b0 b1 b2 b3 ant b5 rssi tid lo hi) hs rfl
    refine ⟨_, t, items, rfl, hrun, hexec, fun hidle hfx => ?_⟩
    rw [← Ops.frameItem_eq]
    refine hwhole hidle ?_
    rw [hfx, Rx.targetOf_fx]
    simp [htid]
  · exact step_of_instead hin (decodeFxIn_unfinished hpos hshort)

/-- Settles O42: the loop of TD.TLV takes the one record, or raises at its header. -/
theorem wireTlvRecResult : Obligations.WireTlvRecResult := by
  unfold Obligations.WireTlvRecResult
  refine ⟨fun s f p tid rssi htid => ?_, fun s h rest ts hin hshort => ?_⟩
  · exact answerTlv_of_ok (decodeTlv_record f p rssi htid) s
  · rw [step_of_instead hin (decodeTlvRec_unfinished hshort)]
    exact answerTlv_of_error (decodeTlv_bad_header hshort) _

/-- Settles O55: an unassigned op number decodes to itself, and a proper start of a string to its op byte's refusal. -/
theorem illegalOpRefused : Obligations.IllegalOpRefused := by
  unfold Obligations.IllegalOpRefused
  refine ⟨fun s ts op rest hin hop => ?_, fun s ts i k hwf hchan hpos hk hin => ?_⟩
  · exact ⟨_, step_of_instr hin (decodeOp_reserved rest hop)⟩
  · exact ⟨_, step_of_instead hin (decodeOp_take hwf hchan hpos hk)⟩

/-- Settles O40: the command is its seven constant bytes with their checksum, whose residue is zero. -/
theorem wireFxCmdResult : Obligations.WireFxCmdResult := by
  unfold Obligations.WireFxCmdResult
  refine ⟨fun s m => ?_, fun s bs ts hin hno => ?_⟩
  · exact ⟨fxCommand m, rfl, rfl, rfl, Residue.crc16_appendCrc (fxCommandBody m)⟩
  · exact step_of_decodeAsOp hin (decodeFxCmd_eq_decodeAsOp hno)

/-- R66: the fields of a header byte are the ones it was made of. -/
theorem headerFields_header (f p : Bool) (n : BitVec 6) :
    headerFields (tlvHeaderByte f p n) = { fastid := f, hasphasefreq := p, n := n } := by
  simp [headerFields]

/-- Settles O41, by the fields of a header byte. -/
theorem wireTlvHdrResult : Obligations.WireTlvHdrResult := by
  unfold Obligations.WireTlvHdrResult
  intro s f p n
  refine Ops.answer_next.2 ?_
  rw [headerFields_header]

/-- R63, R138. -/
theorem statusName_unrecognized {b : Byte} (h : b ∉ knownStatuses) : statusName b = .unrecognized b := by
  unfold statusName
  split
  case h_8 => rfl
  all_goals exact absurd (by decide) h

/-- Settles O43: seven rows by their own byte, the eighth by the name of any other byte. -/
theorem statusRowsResult : Obligations.StatusRowsResult := by
  unfold Obligations.StatusRowsResult
  intro s
  refine ⟨rfl, rfl, rfl, rfl, rfl, rfl, rfl, fun b hb => Ops.answer_next.2 ?_⟩
  rw [statusName_unrecognized hb]
  rfl

/-- Settles O57: each of the six strings is the encoding of its instruction. -/
theorem specWordsDecode : Obligations.SpecWordsDecode := by
  unfold Obligations.SpecWordsDecode
  exact ⟨decode_encodeBytes (i := .crcUpd 0x05#8) [] rfl,
    decode_encodeBytes (i := .txBuild 0x00#8 0x01#8 []) [] rfl,
    decode_encodeBytes (i := .rxChunk [0x0E#8, 0x00#8]) [] rfl,
    decode_encodeBytes (i := .fpStatus 0xF8#8) [] rfl,
    decode_encodeBytes (i := .tdTlv [0x00#8, 0x37#8]) [] rfl,
    decode_encodeBytes (i := .sysReset) [] rfl⟩

end Sys2Proof.Proofs.Encoding
end

/-! The checksum's step: eight times a map of words that is linear over XOR (R98 items 5 and 6) and forgets no bit. -/

section
namespace Sys2Proof.Proofs.Checksum

open Sys2Proof.Machine
open Sys2Proof.Laws

theorem crcShift_of_low_bit {a : Word} (h : a.getLsbD 0 = true) : crcShift a = a >>> 1 ^^^ Config.crcPoly := if_pos h

theorem crcShift_of_no_low_bit {a : Word} (h : a.getLsbD 0 = false) : crcShift a = a >>> 1 :=
  if_neg (by rw [h]; exact Bool.false_ne_true)

theorem crcShifts_eq_iterate (n : Nat) : crcShifts n = crcShift^[n] := by
  funext a
  induction n generalizing a with
  | zero => rfl
  | succ n ih => exact ih (crcShift a)

theorem crcShift_xor (a a' : Word) : crcShift (a ^^^ a') = crcShift a ^^^ crcShift a' := by
  unfold crcShift
  rw [BitVec.ushiftRight_xor_distrib, BitVec.getLsbD_xor]
  cases a.getLsbD 0 <;> cases a'.getLsbD 0
  case false.false => rfl
  case false.true => exact BitVec.xor_assoc ..
  case true.false =>
    change a >>> 1 ^^^ a' >>> 1 ^^^ Config.crcPoly = a >>> 1 ^^^ Config.crcPoly ^^^ a' >>> 1
    ac_rfl
  case true.true => simp [BitVec.xor_assoc]

theorem crcStep_xor (a a' : Word) (b b' : Byte) : crcStep (a ^^^ a') (b ^^^ b') = crcStep a b ^^^ crcStep a' b' := by
  have hlinear : Function.Semiconj₂ crcShift^[8] (· ^^^ ·) (· ^^^ ·) := .iterate crcShift_xor 8
  have hword : a ^^^ a' ^^^ (b ^^^ b').setWidth 16 = a ^^^ b.setWidth 16 ^^^ (a' ^^^ b'.setWidth 16) := by
    rw [BitVec.setWidth_xor]
    ac_rfl
  rw [crcStep, crcShifts_eq_iterate, hword]
  exact hlinear _ _

/-- R90: the bit shifted out of an iteration is the top bit of its result, by the top bit of the polynomial. -/
theorem crcShift_top_bit (a : Word) : (crcShift a).getLsbD 15 = a.getLsbD 0 := by
  cases h : a.getLsbD 0 with
  | true => simp [crcShift_of_low_bit h, Config.crcPoly]
  | false => simp [crcShift_of_no_low_bit h]

theorem crcShift_injective : Function.Injective crcShift := by
  intro a a' h
  have hlow : a.getLsbD 0 = a'.getLsbD 0 := by rw [← crcShift_top_bit, h, crcShift_top_bit]
  have hhigh : a >>> 1 = a' >>> 1 := by
    cases hbit : a'.getLsbD 0 with
    | true =>
      rw [crcShift_of_low_bit (hlow.trans hbit), crcShift_of_low_bit hbit] at h
      exact BitVec.xor_left_inj _ |>.1 h
    | false => rwa [crcShift_of_no_low_bit (hlow.trans hbit), crcShift_of_no_low_bit hbit] at h
  apply BitVec.eq_of_getLsbD_eq
  intro i _
  cases i with
  | zero => exact hlow
  | succ i => simpa [Nat.add_comm] using congrArg (·.getLsbD i) hhigh

theorem crcShifts_injective (n : Nat) : Function.Injective (crcShifts n) :=
  crcShifts_eq_iterate n ▸ crcShift_injective.iterate n

theorem crcStep_injective_acc (b : Byte) : Function.Injective (crcStep · b) := fun _ _ h =>
  BitVec.xor_left_inj _ |>.1 (crcShifts_injective 8 h)

theorem crcStep_injective_byte (a : Word) : Function.Injective (crcStep a) := fun b b' h => by
  have hword : b.setWidth 16 = b'.setWidth 16 := BitVec.xor_right_inj _ |>.1 (crcShifts_injective 8 h)
  simpa using congrArg (BitVec.setWidth 8) hword

theorem crcFrom_injective_acc (bs : List Byte) : Function.Injective (crcFrom · bs) := by
  induction bs with
  | nil => exact Function.injective_id
  | cons b bs ih => exact ih.comp (crcStep_injective_acc b)

/-- R92: the accumulator's own low byte splits off the byte fed, and its step is the shift by one byte. -/
theorem crcStepByTable_eq_crcStep (a : Word) (b : Byte) : crcStepByTable a b = crcStep a b :=
  calc crcStepByTable a b
    _ = crcStep 0#16 (lo8 a ^^^ b) ^^^ crcStep a (lo8 a) := by rw [Residue.crcStep_lo8]; rfl
    _ = crcStep (0#16 ^^^ a) (lo8 a ^^^ b ^^^ lo8 a) := (crcStep_xor ..).symm
    _ = crcStep a b := by simp [BitVec.xor_comm (lo8 a)]

end Sys2Proof.Proofs.Checksum
end

/-! CRC.UPD of bytes in order, read at the end (R77, R94, R95). -/

section
namespace Sys2Proof.Proofs.Checksum

open Sys2Proof.Machine

theorem exec_crcInit (s : State) : exec .crcInit s = .next { s with crcAcc := 0xFFFF#16, outcome := [] } := rfl

theorem exec_crcUpd (s : State) (b : Byte) :
    exec (.crcUpd b) s = .next { s with crcAcc := crcStep s.crcAcc b, outcome := [] } := rfl

theorem exec_crcRd (s : State) : exec .crcRd s = .next { s with outcome := [.value (.u16 s.crcAcc)] } := rfl

theorem exec_crcBlk (s : State) (bs : List Byte) :
    exec (.crcBlk bs) s = .next { s with outcome := [.value (.u16 (crc16 bs))] } := rfl

theorem runOps_crcUpds_crcRd (bs : List Byte) (s : State) :
    runOps (bs.map .crcUpd ++ [.crcRd]) s =
      .next ({ s with crcAcc := crcFrom s.crcAcc bs, outcome := [.value (.u16 (crcFrom s.crcAcc bs))] },
        [.value (.u16 (crcFrom s.crcAcc bs))]) := by
  induction bs generalizing s with
  | nil => exact Laws.Session.runOps_one (exec_crcRd s)
  | cons b bs ih =>
    simp only [List.map_cons, List.cons_append, runOps, exec_crcUpd, ih, List.nil_append, Laws.Crc.crcFrom_cons]

theorem runOps_crcStream (bs : List Byte) (s : State) :
    runOps (crcStream bs) s =
      .next ({ s with crcAcc := crc16 bs, outcome := [.value (.u16 (crc16 bs))] }, [.value (.u16 (crc16 bs))]) := by
  simp only [crcStream, runOps, exec_crcInit, runOps_crcUpds_crcRd, List.nil_append]
  rfl

end Sys2Proof.Proofs.Checksum
end

/-! The obligations on the CRC unit: O5 to O13. -/

section
namespace Sys2Proof.Proofs.Checksum

open Sys2Proof.Machine
open Sys2Proof.Laws

/-- Settles O5, by the instruction's meaning. -/
theorem crcInitResult : Obligations.CrcInitResult := by
  unfold Obligations.CrcInitResult
  exact exec_crcInit

/-- Settles O6, by the instruction's meaning; the example's eight iterations are computed. -/
theorem crcUpdResult : Obligations.CrcUpdResult := by
  unfold Obligations.CrcUpdResult
  exact ⟨exec_crcUpd, by decide⟩

/-- Settles O7, by the instruction's meaning. -/
theorem crcRdResult : Obligations.CrcRdResult := by
  unfold Obligations.CrcRdResult
  exact exec_crcRd

/-- Settles O8, by the instruction's meaning; the example's three steps are computed. -/
theorem crcBlkResult : Obligations.CrcBlkResult := by
  unfold Obligations.CrcBlkResult
  exact ⟨exec_crcBlk, Crc.crc16_nil, by decide +kernel⟩

/-- Settles O9: CRC.INIT sets the accumulator the block checksum starts from, and each CRC.UPD is one of its steps. -/
theorem crcStreamingEqualsBlock : Obligations.CrcStreamingEqualsBlock := by
  unfold Obligations.CrcStreamingEqualsBlock
  exact ⟨fun s bs => runOps_crcStream bs s, Crc.crc16_append⟩

/-- Settles O10: each checksum byte is the accumulator's own low byte, so that two steps shift the accumulator out. -/
theorem crcResidueIsZero : Obligations.CrcResidueIsZero := by
  unfold Obligations.CrcResidueIsZero
  exact Residue.crc16_appendCrc

/-- Settles O11: one iteration is linear, and so are eight of them. -/
theorem crcStepIsLinear : Obligations.CrcStepIsLinear := by
  unfold Obligations.CrcStepIsLinear
  refine ⟨by decide, crcStep_xor, fun a b => ?_⟩
  simp [crcStep]

/-- Settles O12, by linearity step by step. -/
theorem crcTableEqualsBitwise : Obligations.CrcTableEqualsBitwise := by
  unfold Obligations.CrcTableEqualsBitwise
  have hstep : crcStepByTable = crcStep := by
    funext a b
    exact crcStepByTable_eq_crcStep a b
  refine ⟨crcStepByTable_eq_crcStep, fun bs => ?_⟩
  rw [crc16ByTable, hstep]
  rfl

/-- Settles O13: the step tells two bytes apart, and what follows tells two accumulators apart. -/
theorem crcSeesEveryByteChange : Obligations.CrcSeesEveryByteChange := by
  unfold Obligations.CrcSeesEveryByteChange
  intro before after b b' hb heq
  rw [Crc.crc16_append, Crc.crc16_append, Crc.crcFrom_cons, Crc.crcFrom_cons] at heq
  exact hb (crcStep_injective_byte _ (crcFrom_injective_acc after heq))

end Sys2Proof.Proofs.Checksum
end

/-! The frame TX.BUILD gives (R61, R106): its bytes, its checksum, and what FP.PARSE reads from it. -/

section
namespace Sys2Proof.Proofs.FrameBuild

open Sys2Proof.Machine
open Sys2Proof.Laws

variable (adr cmd : Byte) (p : List Byte)

/-- Without its last two bytes a checksummed sequence is what was checksummed. -/
theorem take_appendCrc (body : List Byte) : (appendCrc body).take ((appendCrc body).length - 2) = body := by
  rw [Crc.appendCrc_length, Nat.add_sub_cancel, appendCrc, List.take_left]

theorem lsFrame_length : (lsFrame adr cmd p).length = p.length + 5 := Crc.appendCrc_length (lsBody adr cmd p)

theorem byteAt_lsFrame_zero : byteAt (lsFrame adr cmd p) 0 = lengthByte p.length := rfl

/-- R106: the first byte declares the size. -/
theorem lsFrame_length_law {p : List Byte} (h : p.length ≤ 251) :
    (byteAt (lsFrame adr cmd p) 0).toNat = (lsFrame adr cmd p).length - 1 := by
  rw [byteAt_lsFrame_zero, Ops.lengthByte_toNat h, lsFrame_length]
  omega

/-- The payload stands between the command and the checksum. -/
theorem slice_lsFrame_payload : slice (lsFrame adr cmd p) 3 ((lsFrame adr cmd p).length - 2) = p :=
  congrArg (List.drop 3) (take_appendCrc (lsBody adr cmd p))

/-- R119: its checksum being right, the frame comes out of the reassembler whether that validates or not. -/
theorem frameItem_lsFrame (en : Bool) : frameItem en (lsFrame adr cmd p) = .frame (lsFrame adr cmd p) true := by
  have hok : crcOk (lsFrame adr cmd p) = true := Ops.crcOk_appendCrc (lsBody adr cmd p)
  simp [Ops.frameItem_eq, hok]

theorem parseFrame_lsFrame {p : List Byte} (h : p.length ≤ 251) :
    parseFrame (lsFrame adr cmd p) = .ok (frameFields (lsFrame adr cmd p)) := by
  obtain ⟨-, -, hok⟩ | ⟨hshort | hlaw, -⟩ := Ops.parseFrame_cases (lsFrame adr cmd p)
  · exact hok
  · rw [lsFrame_length] at hshort
    omega
  · exact absurd (lsFrame_length_law adr cmd h) hlaw

/-! The operations on it. -/

theorem exec_txBuild_of_fits {p : List Byte} (h : p.length ≤ 251) (s : State) :
    exec (.txBuild adr cmd p) s = .next { s with outcome := [.value (.frameBytes (lsFrame adr cmd p))] } :=
  if_neg (Nat.not_lt.2 h)

theorem exec_txBuild_of_too_long {p : List Byte} (h : 251 < p.length) (s : State) :
    exec (.txBuild adr cmd p) s = .next { s with outcome := [.err (.payloadTooLong p.length)] } :=
  if_pos h

theorem exec_txBuildFx (m : Byte) (s : State) :
    exec (.txBuildFx m) s = .next { s with outcome := [.value (.frameBytes (fxCommand m))] } := rfl

theorem exec_fpParse_of_ok {f : List Byte} {fields : FrameFields} (h : parseFrame f = .ok fields) (s : State) :
    exec (.fpParse f) s = .next { s with outcome := [.value (.fields fields)] } := by
  simp only [exec, execFpParse, h]
  rfl

end Sys2Proof.Proofs.FrameBuild
end

/-! Chunks are their bytes (R120, R124), so that a frame cut in any way arrives as the whole frame does. -/

section
namespace Sys2Proof.Proofs.Arrival

open Sys2Proof.Machine
open Sys2Proof.Safety
open Sys2Proof.Laws
open Sys2Proof.Laws.State

theorem receiveAll_append_ok {xs ys : List Byte} {s t : State} {items : List Item}
    (h : receiveAll (xs ++ ys) s = .ok (t, items)) :
    ∃ u i1 i2, receiveAll xs s = .ok (u, i1) ∧ receiveAll ys u = .ok (t, i2) ∧ items = i1 ++ i2 := by
  rw [Ops.receiveAll_append] at h
  cases hxs : receiveAll xs s with
  | error e => simp [hxs] at h
  | ok r =>
    obtain ⟨u, i1⟩ := r
    cases hys : receiveAll ys u with
    | error e => simp [hxs, hys, Except.map] at h
    | ok q =>
      obtain ⟨rfl, rfl⟩ : q.1 = t ∧ i1 ++ q.2 = items := by simpa [hxs, hys, Except.map] using h
      exact ⟨u, i1, q.2, rfl, hys, rfl⟩

/-- R124: chunks leave the state of the reception of all their bytes, but for the outcome list of the last. -/
theorem runOps_rxChunks {chunks : List (List Byte)} {s u : State} {items : List Item}
    (h : receiveAll chunks.flatten s = .ok (u, items)) :
    ∃ last, runOps (chunks.map .rxChunk) s = .next (respond last u, items) := by
  induction chunks generalizing s u items with
  | nil =>
    cases h
    exact ⟨s.outcome, rfl⟩
  | cons c cs ih =>
    rw [List.flatten_cons] at h
    obtain ⟨s', i1, i2, hc, hcs, rfl⟩ := receiveAll_append_ok h
    have hexec : exec (.rxChunk c) s = .next (respond i1 s') := Ops.deliver_next.2 ⟨s', i1, hc, rfl⟩
    have hrest : receiveAll cs.flatten (respond i1 s') = .ok (respond i1 u, i2) := by
      rw [receiveAll_respond, hcs]
      rfl
    obtain ⟨last, hlast⟩ := ih hrest
    exact ⟨last, by simp only [List.map_cons, runOps, hexec, hlast, respond_outcome, respond_respond]⟩

/-- R119, R124: a frame of the size its first byte declares, cut in any way, comes out of an `Idle` unit as one item. -/
theorem runOps_rxChunks_frame {s : State} (hs : Inv s) (hidle : s.rxState = .idle) {b : Byte} {bs : List Byte}
    (hsize : (targetOf s.dialect b).toNat = bs.length + 1) {chunks : List (List Byte)} (hcut : chunks.flatten = b :: bs) :
    ∃ t, runOps (chunks.map .rxChunk) s = .next (t, [frameItem s.crcCheckEn (b :: bs)]) ∧ t.rxState = .idle := by
  obtain ⟨u, hu, huidle⟩ := receiveAll_frame_of_idle hs hidle b bs hsize
  rw [← hcut] at hu ⊢
  obtain ⟨last, hrun⟩ := runOps_rxChunks hu
  exact ⟨respond last u, hrun, huidle⟩

end Sys2Proof.Proofs.Arrival
end

/-! The obligations on building frames: O15 to O17. -/

section
namespace Sys2Proof.Proofs.FrameBuild

open Sys2Proof.Machine
open Sys2Proof.Safety
open Sys2Proof.Laws
open Sys2Proof.Proofs.Arrival

/-- R108: a built frame fed to an `Idle` LS reassembler comes out as it is: the Length it was built with is the size the
reassembler waits for. -/
theorem runOps_rxChunks_lsFrame (adr cmd : Byte) {p : List Byte} (hp : p.length ≤ 251) {s : State} (hs : Inv s)
    (hidle : s.rxState = .idle) (hls : s.dialect = .ls) {chunks : List (List Byte)}
    (hcut : chunks.flatten = lsFrame adr cmd p) :
    ∃ t, runOps (chunks.map .rxChunk) s = .next (t, [.frame (lsFrame adr cmd p) true]) ∧ t.rxState = .idle := by
  have hsize : (targetOf s.dialect (lengthByte p.length)).toNat = (lsFrame adr cmd p).length := by
    rw [hls, Rx.targetOf_ls, Ops.lengthByte_toNat hp, lsFrame_length]
    omega
  rw [← frameItem_lsFrame adr cmd p s.crcCheckEn]
  exact runOps_rxChunks_frame hs hidle hsize hcut

/-- Settles O17: the frame's first byte declares its size, so any cut of it is received whole, and FP.PARSE reads its
fields at the offsets they were built at. -/
theorem buildReassembleParse : Obligations.BuildReassembleParse := by
  unfold Obligations.BuildReassembleParse
  intro adr cmd p hp
  refine ⟨lsFrame adr cmd p, exec_txBuild_of_fits adr cmd hp, Ops.lengthByte_toNat hp, ?_, ?_, ?_⟩
  · simp only [lsFrame, take_appendCrc]
    rfl
  · intro s chunks hs hidle hls hcut
    exact runOps_rxChunks_lsFrame adr cmd hp hs hidle hls hcut
  · intro s
    exact ⟨_, exec_fpParse_of_ok (parseFrame_lsFrame adr cmd hp) s, rfl, rfl, slice_lsFrame_payload adr cmd p⟩

/-- Settles O15: the frame is its body with the checksum, whose residue is zero. -/
theorem txBuildResult : Obligations.TxBuildResult := by
  unfold Obligations.TxBuildResult
  intro s adr cmd p
  refine ⟨fun hp => ?_, fun hlong => exec_txBuild_of_too_long adr cmd hlong s⟩
  exact ⟨lengthByte p.length, lsBody adr cmd p, lsFrame adr cmd p, Ops.lengthByte_toNat hp, rfl, rfl,
    exec_txBuild_of_fits adr cmd hp s, lsFrame_length adr cmd p, lsFrame_length_law adr cmd hp,
    Ops.crcOk_appendCrc (lsBody adr cmd p), Residue.crc16_appendCrc (lsBody adr cmd p)⟩

/-- Settles O16: the scan command is its seven bytes with their checksum, which `fxCommand` writes out. -/
theorem txBuildFxResult : Obligations.TxBuildFxResult := by
  unfold Obligations.TxBuildFxResult
  intro s m
  exact exec_txBuildFx m s

end Sys2Proof.Proofs.FrameBuild
end

/-! The store of a byte (R117): the fields it sets, and what is held afterwards. -/

section
namespace Sys2Proof.Proofs.Arrival

open Sys2Proof.Machine
open Sys2Proof.Laws

/-- R117, R118: the store, field by field. -/
theorem afterStore_eq (b : Byte) (s : State) :
    Rx.afterStore b s =
      { s with
        rxState := .accumulating, rxTarget := (beginFrame b s).rxTarget, rxLen := s.rxLen + 1#9,
        rxBuf := writeByte s.rxBuf s.rxLen.toNat b } := by
  cases hs : s.rxState <;> simp [Rx.afterStore, beginFrame, hs]

/-- R117: what a read up to the byte just stored gives: the bytes held before it, then that byte. -/
theorem readRange_afterStore_bytes {s : State} {b : Byte} {f : List Byte}
    (hf : readRange (Rx.afterStore b s).rxBuf 0 (s.rxLen.toNat + 1) = some f) :
    f.length = s.rxLen.toNat + 1 ∧ (∀ i, i < s.rxLen.toNat → f[i]? = readByte s.rxBuf i) ∧
      f[s.rxLen.toNat]? = some b := by
  obtain ⟨hlen, hbytes⟩ := Memory.readRange_eq_some hf
  simp only [Rx.afterStore_rxBuf, Nat.zero_add] at hbytes
  refine ⟨hlen, fun i hi => ?_, ?_⟩
  · rw [← hbytes i (by omega), Memory.readByte_writeByte_other s.rxBuf b (Nat.ne_of_lt hi)]
  · rw [← hbytes _ (Nat.lt_succ_self _), Memory.readByte_writeByte_same]

end Sys2Proof.Proofs.Arrival
end

/-! The size a frame's first byte declares (R118, R125): the reassembler takes frames of that size apart again, and it
lets out no other. -/

section
namespace Sys2Proof.Proofs.Framing

open Sys2Proof.Machine
open Sys2Proof.Safety
open Sys2Proof.Laws
open Sys2Proof.Proofs.Effects
open Sys2Proof.Proofs.Arrival

/-- The frame is as long as its first byte declares in this dialect. -/
def HasDeclaredSize (d : Dialect) (f : List Byte) : Prop := f.length = (targetOf d (byteAt f 0)).toNat

theorem hasDeclaredSize_iff (d : Dialect) (f : List Byte) :
    HasDeclaredSize d f ↔ (d = .ls → f.length = (byteAt f 0).toNat + 1) ∧ (d = .fx → f.length = 19) := by
  cases d with
  | ls => simp [HasDeclaredSize, Rx.targetOf_ls]
  | fx => simp [HasDeclaredSize, Rx.targetOf_fx]

theorem HasDeclaredSize.length_bounds {d : Dialect} {f : List Byte} (h : HasDeclaredSize d f) :
    1 ≤ f.length ∧ f.length ≤ 256 := by
  rw [h]
  exact Rx.targetOf_pos d (byteAt f 0)

/-! What comes out. -/

/-- R26, R118: after a store the target is the one declared by the first byte of the buffer. -/
theorem inv_declared_target {s : State} (hs : Inv s) (b : Byte) :
    ∃ c, readByte (Rx.afterStore b s).rxBuf 0 = some c ∧
      (beginFrame b s).rxTarget.toNat = (targetOf s.dialect c).toNat := by
  rw [Rx.afterStore_rxBuf]
  cases hst : s.rxState with
  | idle =>
    rw [hs.idleLen.1 hst, State.beginFrame_rxTarget_idle s b hst]
    exact ⟨b, Memory.readByte_writeByte_same _ _ _, rfl⟩
  | accumulating =>
    obtain ⟨hpos, -, -⟩ := hs.accumulating.1 hst
    rw [State.beginFrame_accumulating s b hst, Memory.readByte_writeByte_other s.rxBuf b (by omega)]
    cases hd : s.dialect with
    | ls =>
      obtain ⟨c, hc, htarget⟩ := hs.lsTarget hd hst
      exact ⟨c, hc, htarget.trans (Rx.targetOf_ls c).symm⟩
    | fx =>
      obtain ⟨c, hc⟩ := Option.isSome_iff_exists.1 (hs.written 0 hpos)
      exact ⟨c, hc, hs.fxTarget hd hst⟩

/-- R119: the frame a completing byte reads out has the size it declares. -/
theorem hasDeclaredSize_of_completes {s : State} (hs : Inv s) {b : Byte} {f : List Byte}
    (hdone : s.rxLen + 1#9 = (beginFrame b s).rxTarget)
    (hf : readRange (Rx.afterStore b s).rxBuf 0 (s.rxLen + 1#9).toNat = some f) : HasDeclaredSize s.dialect f := by
  obtain ⟨hlen, hbytes⟩ := Memory.readRange_eq_some hf
  obtain ⟨c, hc, htarget⟩ := inv_declared_target hs b
  obtain ⟨-, hsucc, -, -⟩ := Rx.inv_target hs b
  have hfirst : f[0]? = some c := (hbytes 0 (by omega)).symm.trans hc
  have hbyte : byteAt f 0 = c := by simp [byteAt, List.getD_eq_getElem?_getD, hfirst]
  rw [HasDeclaredSize, hbyte, hlen, hdone, htarget]

theorem receiveByte_items_declaredSize {b : Byte} {s t : State} {items : List Item} (hs : Inv s)
    (h : receiveByte b s = .ok (t, items)) :
    ∀ x ∈ items, ∃ f, x = frameItem s.crcCheckEn f ∧ HasDeclaredSize s.dialect f := by
  intro x hx
  obtain ⟨-, ⟨-, -, rfl⟩ | ⟨hdone, -, f, hf, rfl⟩⟩ := Rx.receiveByte_cases h
  · cases hx
  · exact ⟨f, List.mem_singleton.1 hx, hasDeclaredSize_of_completes hs hdone hf⟩

/-- R125, first part. -/
theorem receiveAll_items_declaredSize {bs : List Byte} {s t : State} {items : List Item} (hs : Inv s)
    (h : receiveAll bs s = .ok (t, items)) :
    ∀ x ∈ items, ∃ f, x = frameItem s.crcCheckEn f ∧ HasDeclaredSize s.dialect f := by
  induction bs generalizing s items with
  | nil =>
    cases h
    exact fun x hx => absurd hx List.not_mem_nil
  | cons b bs ih =>
    obtain ⟨s', i1, i2, hb, hbs, rfl⟩ := Rx.receiveAll_cons_ok h
    obtain ⟨-, hdialect, hcheck, -⟩ := Rx.receiveByte_frame hb
    intro x hx
    obtain hx | hx := List.mem_append.1 hx
    · exact receiveByte_items_declaredSize hs hb x hx
    · rw [← hdialect, ← hcheck]
      exact ih (Rx.receiveByte_keeps_inv hs hb) hbs x hx

/-! What goes in. -/

theorem receiveAll_declaredSize {s : State} (hs : Inv s) (hidle : s.rxState = .idle) {f : List Byte}
    (hf : HasDeclaredSize s.dialect f) :
    ∃ t, receiveAll f s = .ok (t, [frameItem s.crcCheckEn f]) ∧ t.rxState = .idle := by
  obtain ⟨hpos, -⟩ := hf.length_bounds
  cases f with
  | nil => cases hpos
  | cons b bs => exact receiveAll_frame_of_idle hs hidle b bs hf.symm

/-- R125, second part: a concatenation of frames is taken apart into them, each leaving the unit as the next needs it. -/
theorem receiveAll_frames {s : State} (hs : Inv s) (hidle : s.rxState = .idle) {fs : List (List Byte)}
    (hfs : ∀ f ∈ fs, HasDeclaredSize s.dialect f) :
    ∃ t, receiveAll fs.flatten s = .ok (t, fs.map (frameItem s.crcCheckEn)) ∧ t.rxState = .idle := by
  induction fs generalizing s with
  | nil => exact ⟨s, rfl, hidle⟩
  | cons f fs ih =>
    obtain ⟨hf, hrest⟩ := List.forall_mem_cons.1 hfs
    obtain ⟨u, hu, huidle⟩ := receiveAll_declaredSize hs hidle hf
    obtain ⟨-, hdialect, hcheck, -⟩ := Rx.receiveAll_frame hu
    obtain ⟨t, ht, htidle⟩ := ih (receiveAll_keeps_inv hs hu) huidle (hdialect.symm ▸ hrest)
    refine ⟨t, ?_, htidle⟩
    rw [List.flatten_cons, Ops.receiveAll_append, hu]
    simp [ht, hcheck, Except.map]

end Sys2Proof.Proofs.Framing
end

/-! The obligations on the reassembler: O18 to O25. -/

section
namespace Sys2Proof.Proofs.Reassembler

open Sys2Proof.Machine
open Sys2Proof.Safety
open Sys2Proof.Laws
open Sys2Proof.Laws.State
open Sys2Proof.Proofs.Effects
open Sys2Proof.Proofs.Arrival
open Sys2Proof.Proofs.Framing

/-- Settles O22: by induction over the frames, each of which leaves the unit `Idle` for the next. -/
theorem wellFormedStreamIsFramed : Obligations.WellFormedStreamIsFramed := by
  unfold Obligations.WellFormedStreamIsFramed
  intro s fs hs hidle hls hfx
  have hsized : ∀ f ∈ fs, HasDeclaredSize s.dialect f := fun f hf =>
    (hasDeclaredSize_iff s.dialect f).2 ⟨fun hd => hls hd f hf, fun hd => hfx hd f hf⟩
  obtain ⟨t, ht, htidle⟩ := receiveAll_frames hs hidle hsized
  refine ⟨respond (fs.map (frameItem s.crcCheckEn)) t, Ops.deliver_next.2 ⟨t, _, ht, rfl⟩, htidle, ?_⟩
  exact List.map_congr_left fun f _ => Ops.frameItem_eq s.crcCheckEn f

/-- Settles O18: the byte is stored, and the completion test has two ways out. -/
theorem rxByteResult : Obligations.RxByteResult := by
  unfold Obligations.RxByteResult
  intro s b hs
  obtain ⟨-, hlen, -, -⟩ := Rx.inv_target hs b
  refine ⟨(beginFrame b s).rxTarget, fun hidle hls => ?_, fun hidle hfx => ?_, fun hacc => ?_, fun hne => ?_,
    fun heq => ?_⟩
  · rw [beginFrame_rxTarget_idle s b hidle, hls, Rx.targetOf_ls]
  · rw [beginFrame_rxTarget_idle s b hidle, hfx, Rx.targetOf_fx]
  · rw [beginFrame_accumulating s b hacc]
  · obtain ⟨-, hr⟩ | ⟨hdone, -⟩ := Rx.receiveByte_inv hs b
    · exact Ops.deliver_next.2 ⟨_, _, hr, by rw [afterStore_eq]⟩
    · exact absurd (hlen.symm.trans (congrArg BitVec.toNat hdone)) hne
  · obtain ⟨hgoes, -⟩ | ⟨-, f, hf, hr⟩ := Rx.receiveByte_inv hs b
    · exact absurd (BitVec.eq_of_toNat_eq (hlen.trans heq)) hgoes
    · rw [hlen] at hf
      obtain ⟨hflen, hheld, hlast⟩ := readRange_afterStore_bytes hf
      exact ⟨f, hflen.trans heq, hheld, hlast,
        Ops.deliver_next.2 ⟨_, _, hr, by rw [afterStore_eq, goIdle, Ops.frameItem_eq]⟩⟩

/-- Settles O19: both are the reception of the bytes in order. -/
theorem rxChunkIsItsBytes : Obligations.RxChunkIsItsBytes := by
  unfold Obligations.RxChunkIsItsBytes
  intro s bs hs
  obtain ⟨u, items, hu, -⟩ := Rx.receiveAll_inv hs bs
  obtain ⟨last, hrun⟩ := runOps_rxBytes hu
  exact ⟨respond last u, items, hrun, Ops.deliver_next.2 ⟨u, items, hu, rfl⟩⟩

/-- Settles O20: all three are the reception of the bytes in order, and differ at most in the last outcome list. -/
theorem chunkBoundaryIndependence : Obligations.ChunkBoundaryIndependence := by
  unfold Obligations.ChunkBoundaryIndependence
  intro s chunks hs
  obtain ⟨r, items, hr, -⟩ := Rx.receiveAll_inv hs chunks.flatten
  obtain ⟨lastChunk, hchunks⟩ := runOps_rxChunks hr
  obtain ⟨lastByte, hbytes⟩ := runOps_rxBytes hr
  exact ⟨respond lastChunk r, respond lastByte r, items, hchunks, hbytes,
    Ops.deliver_next.2 ⟨r, items, hr, rfl⟩, rfl⟩

/-- Settles O21: a frame is read out when its length reaches the target, which the invariant ties to its first byte. -/
theorem emittedFramesHaveDeclaredSize : Obligations.EmittedFramesHaveDeclaredSize := by
  unfold Obligations.EmittedFramesHaveDeclaredSize
  intro s t bs x hs hexec hx
  obtain ⟨u, items, hu, rfl⟩ := Ops.deliver_next.1 hexec
  obtain ⟨f, rfl, hsize⟩ := receiveAll_items_declaredSize hs hu x hx
  obtain ⟨hpos, hmax⟩ := hsize.length_bounds
  obtain ⟨hls, hfx⟩ := (hasDeclaredSize_iff s.dialect f).1 hsize
  refine ⟨f, ?_, hpos, hmax, hls, hfx⟩
  obtain ⟨-, -, hitem⟩ | ⟨-, hitem⟩ := Ops.frameItem_cases s.crcCheckEn f
  · exact .inr hitem
  · exact .inl hitem

/-- Settles O23: an error outcome from the emptied unit, whatever it held. -/
theorem rxEosResult : Obligations.RxEosResult := by
  unfold Obligations.RxEosResult
  intro s
  exact Ops.raise_next.2 rfl

/-- Settles O24: an empty outcome from the emptied unit. -/
theorem rxFlushResult : Obligations.RxFlushResult := by
  unfold Obligations.RxFlushResult
  intro s
  exact Ops.done_next.2 rfl

/-- Settles O25: a value read from the registers. -/
theorem rxStatResult : Obligations.RxStatResult := by
  unfold Obligations.RxStatResult
  intro s
  exact Ops.answer_next.2 rfl

end Sys2Proof.Proofs.Reassembler
end

/-! The residue of a sequence with any two bytes at its end (R135): zero exactly when they are the checksum. -/

section
namespace Sys2Proof.Proofs.Residue

open Sys2Proof.Machine
open Sys2Proof.Laws

/-- The accumulator's own two bytes, low first, shift it out. -/
theorem crcFrom_le16_own_bytes (lo hi : Byte) : crcFrom (le16 lo hi) [lo, hi] = 0x0000#16 := by
  have hlo : crcStep (le16 lo hi) lo = le16 lo hi >>> 8 := by
    simpa only [Bytes.lo8_le16] using crcStep_lo8 (le16 lo hi)
  have hhi : crcStep (le16 lo hi >>> 8) hi = le16 lo hi >>> 8 >>> 8 := by
    have hbyte : lo8 (le16 lo hi >>> 8) = hi := Bytes.hi8_le16 lo hi
    simpa only [hbyte] using crcStep_lo8 (le16 lo hi >>> 8)
  rw [Crc.crcFrom_cons, hlo, Crc.crcFrom_cons, hhi, Crc.crcFrom_nil, ← BitVec.shiftRight_add]
  exact BitVec.ushiftRight_eq_zero (Nat.le_refl _)

/-- No other accumulator is shifted out by them, as no byte makes the accumulator forget. -/
theorem crc16_append_pair_eq_zero_iff (body : List Byte) (lo hi : Byte) :
    crc16 (body ++ [lo, hi]) = 0x0000#16 ↔ crc16 body = le16 lo hi := by
  rw [Crc.crc16_append, ← crcFrom_le16_own_bytes lo hi]
  exact (Checksum.crcFrom_injective_acc [lo, hi]).eq_iff

end Sys2Proof.Proofs.Residue
end

/-! Frames as FP.PARSE takes them apart (R61, R136): the accepted sequences are the LS frames with any two bytes where
the checksum stands. -/

section
namespace Sys2Proof.Proofs.FrameParse

open Sys2Proof.Machine
open Sys2Proof.Laws

theorem exists_append_pair {f : List Byte} (h : 2 ≤ f.length) : ∃ body lo hi, f = body ++ [lo, hi] := by
  obtain ⟨lo, hi, hlast⟩ : ∃ lo hi, f.drop (f.length - 2) = [lo, hi] :=
    List.length_eq_two.1 (by rw [List.length_drop]; omega)
  exact ⟨f.take (f.length - 2), lo, hi, by rw [← hlast, List.take_append_drop]⟩

/-- R135, R42: a right checksum is the one that is appended. -/
theorem append_pair_eq_appendCrc {body : List Byte} {lo hi : Byte} (h : crcOk (body ++ [lo, hi]) = true) :
    body ++ [lo, hi] = appendCrc body := by
  have hcrc : crc16 body = le16 lo hi := by simpa [Ops.crcOk_append] using h
  rw [appendCrc, crcBytes, hcrc, Bytes.lo8_le16, Bytes.hi8_le16]

/-- R62: the Length byte is the payload's, and bounds it. -/
theorem eq_lengthByte_of_toNat {len : Byte} {n : Nat} (h : len.toNat = n + 4) : n ≤ 251 ∧ len = lengthByte n := by
  have hn : n ≤ 251 := by
    have := len.isLt
    omega
  refine ⟨hn, BitVec.eq_of_toNat_eq ?_⟩
  rw [h, Ops.lengthByte_toNat hn, Nat.add_comm]

variable (adr st : Byte) (p : List Byte) (lo hi : Byte)

theorem lsFrameWith_length : (lsFrameWith adr st p lo hi).length = p.length + 5 := by
  simp [lsFrameWith, lsBody]

/-- The payload stands between the status and the checksum. -/
theorem slice_lsFrameWith_payload :
    slice (lsFrameWith adr st p lo hi) 3 ((lsFrameWith adr st p lo hi).length - 2) = p := by
  simp [slice, lsFrameWith, lsBody]

/-- R136: each field at its offset. -/
theorem frameFields_lsFrameWith :
    frameFields (lsFrameWith adr st p lo hi) =
      { length := lengthByte p.length, address := adr, status := st, payload := p, crc := le16 lo hi
        crcOk := crcOk (lsFrameWith adr st p lo hi) } := by
  have hlo : byteAt (lsFrameWith adr st p lo hi) ((lsFrameWith adr st p lo hi).length - 2) = lo := by
    simp [lsFrameWith]
  have hhi : byteAt (lsFrameWith adr st p lo hi) ((lsFrameWith adr st p lo hi).length - 1) = hi := by
    simp [lsFrameWith]
  rw [frameFields, hlo, hhi, slice_lsFrameWith_payload]
  rfl

/-- R140: of a built frame the checksum read is the one computed. -/
theorem frameFields_lsFrame :
    frameFields (lsFrame adr st p) =
      { length := lengthByte p.length, address := adr, status := st, payload := p, crc := crc16 (lsBody adr st p)
        crcOk := true } := by
  have hwith : lsFrame adr st p =
      lsFrameWith adr st p (lo8 (crc16 (lsBody adr st p))) (hi8 (crc16 (lsBody adr st p))) := rfl
  have hok : crcOk (lsFrame adr st p) = true := Ops.crcOk_appendCrc (lsBody adr st p)
  rw [hwith, frameFields_lsFrameWith, ← hwith, hok, Bytes.le16_lo8_hi8]

theorem parseFrame_lsFrameWith {p : List Byte} (h : p.length ≤ 251) :
    parseFrame (lsFrameWith adr st p lo hi) = .ok (frameFields (lsFrameWith adr st p lo hi)) := by
  have hlaw : (byteAt (lsFrameWith adr st p lo hi) 0).toNat = 4 + p.length := Ops.lengthByte_toNat h
  have hlen := lsFrameWith_length adr st p lo hi
  obtain ⟨-, -, hok⟩ | ⟨hshort | hne, -⟩ := Ops.parseFrame_cases (lsFrameWith adr st p lo hi)
  · exact hok
  · omega
  · exact absurd (by omega) hne

/-- R136: an accepted sequence is such a frame. -/
theorem exists_lsFrameWith {f : List Byte} (hlen : 5 ≤ f.length) (hlaw : (byteAt f 0).toNat = f.length - 1) :
    ∃ adr st p lo hi, p.length ≤ 251 ∧ f = lsFrameWith adr st p lo hi := by
  match f, hlen with
  | len :: adr :: st :: rest, hlen =>
    simp only [List.length_cons, Bytes.byteAt_cons_zero] at hlen hlaw
    obtain ⟨p, lo, hi, rfl⟩ := exists_append_pair (f := rest) (by omega)
    obtain ⟨hp, rfl⟩ := eq_lengthByte_of_toNat (len := len) (n := p.length) (by simp at hlaw; omega)
    exact ⟨adr, st, p, lo, hi, hp, rfl⟩

theorem parseFrame_eq_ok {f : List Byte} {fields : FrameFields} (h : parseFrame f = .ok fields) :
    ∃ adr st p lo hi, p.length ≤ 251 ∧ f = lsFrameWith adr st p lo hi ∧ fields = frameFields f := by
  obtain ⟨hlen, hlaw, hok⟩ | ⟨-, herr⟩ := Ops.parseFrame_cases f
  · obtain ⟨adr, st, p, lo, hi, hp, hf⟩ := exists_lsFrameWith hlen hlaw
    exact ⟨adr, st, p, lo, hi, hp, hf, Except.ok.inj (h.symm.trans hok)⟩
  · cases h.symm.trans herr

/-! The operations (R136 to R139). -/

theorem exec_fpParse_of_error {f : List Byte} {e : Err} (h : parseFrame f = .error e) (s : State) :
    exec (.fpParse f) s = .next { s with outcome := [.err e] } := by
  simp only [exec, execFpParse, h]
  rfl

theorem parseFrame_of_exec_fpParse {f : List Byte} {fields : FrameFields} {s : State}
    (h : exec (.fpParse f) s = .next { s with outcome := [.value (.fields fields)] }) : parseFrame f = .ok fields := by
  cases hparse : parseFrame f with
  | ok found =>
    rw [FrameBuild.exec_fpParse_of_ok hparse] at h
    simpa using h
  | error e =>
    rw [exec_fpParse_of_error hparse] at h
    simp at h

theorem exec_fpCheck (f : List Byte) (s : State) :
    exec (.fpCheck f) s = .next { s with outcome := [.value (.crcOk (crcOk f))] } := rfl

theorem exec_fpStatus (b : Byte) (s : State) :
    exec (.fpStatus b) s =
      .next { s with outcome := [.value (.status (statusName b) (statusClass (statusName b)))] } := rfl

end Sys2Proof.Proofs.FrameParse
end

/-! The obligations on parsing frames: O14 and O27 to O30. -/

section
namespace Sys2Proof.Proofs.FrameParse

open Sys2Proof.Machine
open Sys2Proof.Laws

/-- Settles O14: the last two bytes bring the accumulator to zero exactly when they are its own. -/
theorem crcOkIffResidueZero : Obligations.CrcOkIffResidueZero := by
  unfold Obligations.CrcOkIffResidueZero
  intro f hlen
  obtain ⟨body, lo, hi, rfl⟩ := exists_append_pair hlen
  rw [Ops.crcOk_append, decide_eq_true_iff, Residue.crc16_append_pair_eq_zero_iff]

/-- Settles O27: a sequence that passes the two tests is read at the offsets of its fields, every other is refused. -/
theorem fpParseResult : Obligations.FpParseResult := by
  unfold Obligations.FpParseResult
  refine ⟨fun s len adr st lo hi p hlaw => ?_, fun s f hbad => ?_⟩
  · obtain ⟨hp, rfl⟩ := eq_lengthByte_of_toNat hlaw
    have hparse := parseFrame_lsFrameWith adr st lo hi hp
    rw [frameFields_lsFrameWith] at hparse
    exact FrameBuild.exec_fpParse_of_ok hparse s
  · obtain ⟨hlen, hlaw, -⟩ | ⟨-, herr⟩ := Ops.parseFrame_cases f
    · omega
    · exact exec_fpParse_of_error herr s

/-- Settles O28: `crc_ok` by the split of the last two bytes, and false where there are not two. -/
theorem fpCheckResult : Obligations.FpCheckResult := by
  unfold Obligations.FpCheckResult
  refine ⟨fun s body lo hi => ?_, fun s f hshort => ?_⟩
  · rw [exec_fpCheck, Ops.crcOk_append]
  · rw [exec_fpCheck, Ops.crcOk_short hshort]

/-- Settles O29: the seven known bytes by the table, and the name that carries the byte for every other. -/
theorem fpStatusResult : Obligations.FpStatusResult := by
  unfold Obligations.FpStatusResult
  intro s b
  refine ⟨statusName b, statusClass (statusName b), exec_fpStatus b s, ?_, ?_, ?_, ?_, ?_, ?_, ?_, ?other⟩
  case other =>
    intro hother
    rw [Encoding.statusName_unrecognized hother]
    exact ⟨rfl, rfl⟩
  all_goals
    rintro rfl
    exact ⟨rfl, rfl⟩

/-- Settles O30: both ways a frame is its body with the checksum; a frame accepted with `crc_ok` carries the bytes that
TX.BUILD would append. -/
theorem parseInvertsBuild : Obligations.ParseInvertsBuild := by
  unfold Obligations.ParseInvertsBuild
  refine ⟨fun s adr cmd p hp => ?_, fun s f fields hexec hcrc => ?_⟩
  · have hparse := FrameBuild.parseFrame_lsFrame adr cmd hp
    rw [frameFields_lsFrame] at hparse
    exact ⟨lsFrame adr cmd p, lengthByte p.length, Ops.lengthByte_toNat hp,
      FrameBuild.exec_txBuild_of_fits adr cmd hp s, FrameBuild.exec_fpParse_of_ok hparse s⟩
  · obtain ⟨adr, st, p, lo, hi, hp, rfl, rfl⟩ := parseFrame_eq_ok (parseFrame_of_exec_fpParse hexec)
    have hframe : lsFrameWith adr st p lo hi = lsFrame adr st p := append_pair_eq_appendCrc hcrc
    rw [slice_lsFrameWith_payload, hframe]
    exact FrameBuild.exec_txBuild_of_fits adr st hp s

end Sys2Proof.Proofs.FrameParse
end

/-! Slices of tag records (R67, R152): each is the bytes of records that fit a header, or such bytes and then a header
whose record does not fit. -/

section
namespace Sys2Proof.Proofs.TagDecode

open Sys2Proof.Machine
open Sys2Proof.Laws
open Sys2Proof.Proofs.Records

/-- A record as the wire can carry it (R66, R67): no antenna, and a tid whose length fits the header's six bits. -/
def Carried (r : TagRecord) : Prop := r.antenna = none ∧ r.tid.length ≤ 63

/-- Records on the wire, one behind the other (R67). -/
def recordsBytes (rs : List TagRecord) : List Byte :=
  rs.flatMap (fun r => tlvRecordBytes r.fastid r.hasphasefreq r.tid r.rssi)

@[simp] theorem recordsBytes_nil : recordsBytes [] = [] := rfl

@[simp] theorem recordsBytes_cons (r : TagRecord) (rs : List TagRecord) :
    recordsBytes (r :: rs) = tlvRecordBytes r.fastid r.hasphasefreq r.tid r.rssi ++ recordsBytes rs := rfl

@[simp] theorem recordsBytes_append (rs rs' : List TagRecord) :
    recordsBytes (rs ++ rs') = recordsBytes rs ++ recordsBytes rs' := List.flatMap_append

theorem tlvRecordBytes_length (f p : Bool) (tid : List Byte) (rssi : Byte) :
    (tlvRecordBytes f p tid rssi).length = 2 + tid.length := by
  simp only [tlvRecordBytes, List.length_cons, List.length_append, List.length_nil]
  omega

/-- R152: the passes that take the records at the head of what is left. -/
theorem tlvFrom_records {rs : List TagRecord} (hrs : ∀ r ∈ rs, Carried r) {fuel : Nat} {rest : List Byte} (pos : Nat)
    (recs : List TagRecord) (hf : (recordsBytes rs ++ rest).length ≤ fuel) :
    Td.tlvFrom fuel (recordsBytes rs ++ rest) pos recs =
      Td.tlvFrom rest.length rest (pos + (recordsBytes rs).length) (recs ++ rs) := by
  induction rs generalizing fuel pos recs with
  | nil => simpa using Td.tlvFrom_fuel pos recs hf (Nat.le_refl _)
  | cons r rs ih =>
    obtain ⟨⟨hant, htid⟩, hrs⟩ := List.forall_mem_cons.1 hrs
    have hr : r = ⟨r.tid, r.rssi, none, r.fastid, r.hasphasefreq⟩ := by rw [← hant]
    rw [recordsBytes_cons, List.append_assoc] at hf ⊢
    rw [Td.tlvFrom_record _ _ _ _ _ _ _ htid hf, ← hr, ih hrs _ _ (Nat.le_refl _), List.append_assoc,
      List.singleton_append, List.length_append, tlvRecordBytes_length, Nat.add_assoc pos, Nat.add_assoc pos]

/-- R153 item 4. -/
theorem decodeTlv_records {rs : List TagRecord} (hrs : ∀ r ∈ rs, Carried r) : decodeTlv (recordsBytes rs) = .ok rs := by
  have h := tlvFrom_records hrs (rest := []) 0 [] (Nat.le_refl _)
  rw [List.append_nil] at h
  exact (Td.decodeTlv_eq _).trans h

theorem decodeTlv_records_bad_header {rs : List TagRecord} (hrs : ∀ r ∈ rs, Carried r) {h : Byte} {rest : List Byte}
    (hshort : (h :: rest).length < 2 + tidCount h) :
    decodeTlv (recordsBytes rs ++ h :: rest) =
      .error (.malformedPayload (recordsBytes rs).length (tidCount h) rs.length) := by
  rw [Td.decodeTlv_eq, tlvFrom_records hrs 0 [] (Nat.le_refl _), Td.tlvFrom_bad h rest _ _ hshort (Nat.le_refl _),
    Nat.zero_add, List.nil_append]

/-- R67: a header whose record fits has that record behind it. -/
theorem exists_record_of_fits {h : Byte} {rest : List Byte} (hfit : 2 + tidCount h ≤ (h :: rest).length) :
    ∃ r tail, Carried r ∧ h :: rest = tlvRecordBytes r.fastid r.hasphasefreq r.tid r.rssi ++ tail := by
  rw [List.length_cons] at hfit
  have hread : decodeTlvRec (h :: rest) = .instr _ _ := if_pos (by omega)
  obtain ⟨hwf, -, hbytes⟩ := Formats.decodeTlvRec_carries hread
  exact ⟨⟨_, _, none, _, _⟩, _, ⟨rfl, of_decide_eq_true hwf⟩, hbytes⟩

/-- R152: there is no third kind of slice. -/
theorem exists_records (bs : List Byte) : ∃ rs, (∀ r ∈ rs, Carried r) ∧
    (bs = recordsBytes rs ∨
      ∃ h rest, (h :: rest).length < 2 + tidCount h ∧ bs = recordsBytes rs ++ h :: rest) := by
  induction hn : bs.length using Nat.strong_induction_on generalizing bs with
  | _ n ih =>
    cases bs with
    | nil => exact ⟨[], by simp, .inl rfl⟩
    | cons h rest =>
      by_cases hshort : (h :: rest).length < 2 + tidCount h
      · exact ⟨[], by simp, .inr ⟨h, rest, hshort, rfl⟩⟩
      · obtain ⟨r, tail, hr, heq⟩ := exists_record_of_fits (Nat.le_of_not_lt hshort)
        have hlt : tail.length < n := by
          rw [← hn, heq, List.length_append, tlvRecordBytes_length]
          omega
        obtain ⟨rs, hrs, htail⟩ := ih _ hlt tail rfl
        refine ⟨r :: rs, List.forall_mem_cons.2 ⟨hr, hrs⟩, ?_⟩
        rw [heq, recordsBytes_cons]
        obtain rfl | ⟨h', rest', hshort', rfl⟩ := htail
        · exact .inl rfl
        · exact .inr ⟨h', rest', hshort', (List.append_assoc ..).symm⟩

/-- R153 item 4, both ways: the slices that decode are the bytes of records. -/
theorem decodeTlv_eq_ok_iff {bs : List Byte} {rs : List TagRecord} :
    decodeTlv bs = .ok rs ↔ (∀ r ∈ rs, Carried r) ∧ bs = recordsBytes rs := by
  refine ⟨fun hdec => ?_, fun ⟨hrs, hbs⟩ => hbs ▸ decodeTlv_records hrs⟩
  obtain ⟨rs', hrs', rfl | ⟨h, rest, hshort, rfl⟩⟩ := exists_records bs
  · cases (decodeTlv_records hrs').symm.trans hdec
    exact ⟨hrs', rfl⟩
  · cases (decodeTlv_records_bad_header hrs' hshort).symm.trans hdec

/-- R152: what is refused is records and then a header whose record does not fit. -/
theorem exists_bad_header_of_error {bs : List Byte} {e : Err} (hdec : decodeTlv bs = .error e) :
    ∃ rs h rest, (∀ r ∈ rs, Carried r) ∧ (h :: rest).length < 2 + tidCount h ∧ bs = recordsBytes rs ++ h :: rest ∧
      e = .malformedPayload (recordsBytes rs).length (tidCount h) rs.length := by
  obtain ⟨rs, hrs, rfl | ⟨h, rest, hshort, rfl⟩⟩ := exists_records bs
  · cases (decodeTlv_records hrs).symm.trans hdec
  · cases (decodeTlv_records_bad_header hrs hshort).symm.trans hdec
    exact ⟨rs, h, rest, hrs, hshort, rfl, rfl⟩

theorem recordsBytes_length (rs : List TagRecord) :
    (recordsBytes rs).length = (rs.map (fun r => 2 + r.tid.length)).sum := by
  simp only [recordsBytes, List.length_flatMap, tlvRecordBytes_length]

/-- R153 item 1: a record takes two bytes or more. -/
theorem two_mul_length_le (rs : List TagRecord) : 2 * rs.length ≤ (recordsBytes rs).length := by
  induction rs with
  | nil => exact Nat.le_refl _
  | cons r rs ih =>
    rw [recordsBytes_cons, List.length_append, tlvRecordBytes_length, List.length_cons]
    omega

end Sys2Proof.Proofs.TagDecode
end

/-! The record of a 19-byte frame (R154). -/

section
namespace Sys2Proof.Proofs.TagDecode

open Sys2Proof.Machine
open Sys2Proof.Laws

theorem exec_tdFix_of_ok {f : List Byte} {r : TagRecord} {s : State} (h : decodeFix s.params f = .ok r) :
    exec (.tdFix f) s = .next { s with outcome := [.value (.record r)] } := by
  simp only [exec, execTdFix, h]
  rfl

theorem exec_tdFix_of_error {f : List Byte} {e : Err} {s : State} (h : decodeFix s.params f = .error e) :
    exec (.tdFix f) s = .next { s with outcome := [.err e] } := by
  simp only [exec, execTdFix, h]
  rfl

theorem decodeFix_of_length (p : Params) {f : List Byte} (h : f.length = 19) :
    decodeFix p f = .ok { tid := slice f p.fxTidLo (p.fxTidHi + 1), rssi := byteAt f 6, antenna := some (byteAt f 4)
                          fastid := false, hasphasefreq := false } :=
  if_pos h

theorem decodeFix_of_other_length (p : Params) {f : List Byte} (h : f.length ≠ 19) :
    decodeFix p f = .error (.malformedFrame f.length) :=
  if_neg h

/-- R154: at the default range the tid is the ten bytes behind the first seven. -/
theorem slice_tid {p : Params} (hlo : p.fxTidLo = 7) (hhi : p.fxTidHi = 16) {pre tid : List Byte}
    (hpre : pre.length = 7) (htid : tid.length = 10) (rest : List Byte) :
    slice (pre ++ tid ++ rest) p.fxTidLo (p.fxTidHi + 1) = tid := by
  rw [hlo, hhi, slice, List.take_left' (by rw [List.length_append, hpre, htid]), List.drop_left' hpre]

/-- R9: the bytes of a slice are those of the sequence, from the slice's start on. -/
theorem getElem?_slice {s : List Byte} {a b k : Nat} (h : k < (slice s a b).length) :
    (slice s a b)[k]? = s[a + k]? := by
  rw [Bytes.slice_length] at h
  rw [slice, List.getElem?_drop, List.getElem?_take_of_lt (by omega)]

end Sys2Proof.Proofs.TagDecode
end

/-! The obligations on decoding tags: O31 to O33. -/

section
namespace Sys2Proof.Proofs.TagDecode

open Sys2Proof.Machine
open Sys2Proof.Laws
open Sys2Proof.Proofs.Records

/-- Settles O31: a slice is taken record by record, and the loop makes of each record what it was written from. -/
theorem tdTlvResult : Obligations.TdTlvResult := by
  unfold Obligations.TdTlvResult
  refine ⟨fun s rs hrs => ?_, fun s rs h rest bs hrs hbs hshort => ?_, fun bs => ?_⟩
  · exact answerTlv_of_ok (decodeTlv_records hrs) s
  · subst hbs
    exact answerTlv_of_error (decodeTlv_records_bad_header hrs hshort) s
  · exact exists_records bs

/-- Settles O32, by the two kinds of slice: their sizes and their concatenations are those of their records. -/
theorem tlvLaws : Obligations.TlvLaws := by
  unfold Obligations.TlvLaws
  refine ⟨fun bs rs hdec => ?bounds, fun bs cs rs rs' hdec hdec' => ?concat,
    fun bs cs rs cur n count hdec hdec' => ?shifted, fun bs e hdec => ?error⟩
  case bounds =>
    obtain ⟨-, rfl⟩ := decodeTlv_eq_ok_iff.1 hdec
    have hsize := two_mul_length_le rs
    exact ⟨by omega, (recordsBytes_length rs).symm, by omega⟩
  case concat =>
    obtain ⟨hrs, rfl⟩ := decodeTlv_eq_ok_iff.1 hdec
    obtain ⟨hrs', rfl⟩ := decodeTlv_eq_ok_iff.1 hdec'
    rw [← recordsBytes_append]
    exact decodeTlv_records (List.forall_mem_append.2 ⟨hrs, hrs'⟩)
  case shifted =>
    obtain ⟨hrs, rfl⟩ := decodeTlv_eq_ok_iff.1 hdec
    obtain ⟨rs', h, rest, hrs', hshort, rfl, he⟩ := exists_bad_header_of_error hdec'
    obtain ⟨rfl, rfl, rfl⟩ := Err.malformedPayload.inj he
    rw [← List.append_assoc, ← recordsBytes_append, ← List.length_append, ← List.length_append, ← recordsBytes_append]
    exact decodeTlv_records_bad_header (List.forall_mem_append.2 ⟨hrs, hrs'⟩) hshort
  case error =>
    obtain ⟨rs, h, rest, -, hshort, rfl, rfl⟩ := exists_bad_header_of_error hdec
    have hsize := two_mul_length_le rs
    refine ⟨_, _, _, rfl, ?_⟩
    rw [List.length_append]
    simp only [List.length_cons] at hshort ⊢
    omega

/-- Settles O33: each field stands at its offset, and a legal range lies inside the 19 bytes. -/
theorem tdFixResult : Obligations.TdFixResult := by
  unfold Obligations.TdFixResult
  refine ⟨fun s b0 b1 b2 b3 ant b5 rssi lo hi tid hlo hhi htid => ?_, fun s f hwf hlen => ?_, fun s f hlen => ?_⟩
  · have hlen : ([b0, b1, b2, b3, ant, b5, rssi] ++ tid ++ [lo, hi]).length = 19 := by simp [htid]
    have hdec := decodeFix_of_length s.params hlen
    rw [slice_tid hlo hhi rfl htid] at hdec
    exact exec_tdFix_of_ok hdec
  · have hhi : s.params.fxTidHi < 19 := of_decide_eq_true (Bool.and_eq_true_iff.1 hwf).2
    refine ⟨_, exec_tdFix_of_ok (decodeFix_of_length s.params hlen), ?_, fun k hk => getElem?_slice hk,
      Bytes.getElem?_eq_byteAt (by omega), (Bytes.getElem?_eq_byteAt (by omega)).symm, rfl, rfl⟩
    rw [Bytes.slice_length, hlen, Nat.min_eq_left (by omega)]
  · exact exec_tdFix_of_error (decodeFix_of_other_length s.params hlen)

end Sys2Proof.Proofs.TagDecode
end

/-! `CFG` as a byte: its two bits read, and read back after a write (R21, R165, R166). -/

section
namespace Sys2Proof.Proofs.SystemOps

open Sys2Proof.Machine

@[simp] theorem dialectBit_dialectOfBit (b : Bool) : dialectBit (dialectOfBit b) = b := by
  cases b <;> rfl

/-- R21, R165: `DIALECT` has weight 1 and `CRC_CHECK_EN` weight 2. -/
theorem cfgByte_toNat (s : State) :
    (cfgByte s).toNat = (if s.dialect = .fx then 1 else 0) + 2 * (if s.crcCheckEn = true then 1 else 0) := by
  unfold cfgByte
  cases s.dialect <;> cases s.crcCheckEn <;> rfl

/-- A byte with bits 7:2 masked off is its two low bits at their weights. -/
theorem and_three_eq_low_bits (v : Byte) :
    v &&& 0x03#8 = (BitVec.ofBool (v.getLsbD 0)).setWidth 8 + 2#8 * (BitVec.ofBool (v.getLsbD 1)).setWidth 8 := by
  have hmask : v.toNat &&& 3 = v.toNat % 4 := Nat.and_two_pow_sub_one_eq_mod v.toNat 2
  have hbit0 : (v.getLsbD 0).toNat = v.toNat % 2 := by
    rw [BitVec.getLsbD, Nat.toNat_testBit, Nat.pow_zero, Nat.div_one]
  have hbit1 : (v.getLsbD 1).toNat = v.toNat / 2 % 2 := Nat.toNat_testBit v.toNat 1
  apply BitVec.eq_of_toNat_eq
  simp only [BitVec.toNat_and, BitVec.toNat_add, BitVec.toNat_mul, BitVec.toNat_setWidth, BitVec.toNat_ofBool,
    BitVec.toNat_ofNat, Nat.reducePow, Nat.reduceMod, hmask, hbit0, hbit1]
  omega

/-- R166: a configuration written from a byte is read back as that byte, bits 7:2 cleared. -/
theorem cfgByte_of_written (s : State) (v : Byte) (items : List Item) :
    cfgByte { s with dialect := dialectOfBit (v.getLsbD 0), crcCheckEn := v.getLsbD 1, outcome := items } =
      v &&& 0x03#8 := by
  rw [cfgByte, dialectBit_dialectOfBit, and_three_eq_low_bits]

end Sys2Proof.Proofs.SystemOps
end

/-! What the configuration and reset operations answer, one equation per operation and per state of the reassembler. -/

section
namespace Sys2Proof.Proofs.SystemOps

open Sys2Proof.Machine

theorem exec_cfgRd (s : State) : exec .cfgRd s = .next { s with outcome := [.value (.u8 (cfgByte s))] } := rfl

theorem exec_cfgWr_of_idle {s : State} (hs : s.rxState = .idle) (v : Byte) :
    exec (.cfgWr v) s =
      .next { s with dialect := dialectOfBit (v.getLsbD 0), crcCheckEn := v.getLsbD 1, outcome := [] } :=
  Effects.execCfgWr_of_idle v hs

theorem exec_cfgWr_of_accumulating {s : State} (hs : s.rxState = .accumulating) (v : Byte) :
    exec (.cfgWr v) s = .next { s with outcome := [.err (.busy s.rxLen)] } :=
  Effects.execCfgWr_of_accumulating v hs

theorem exec_sysReset (s : State) :
    exec .sysReset s = .next { State.resetWith s.params with input := s.input, outcome := [] } := rfl

theorem exec_reserved (op : Byte) (s : State) :
    exec (.reserved op) s = .next { s with outcome := [.err (.illegalOp op)] } := rfl

end Sys2Proof.Proofs.SystemOps
end

/-! The obligations on the configuration and reset operations: O34 to O37. -/

section
namespace Sys2Proof.Proofs.SystemOps

open Sys2Proof.Machine

/-- Settles O34: the byte answered is `cfgByte`, whose bits are weighed above. -/
theorem cfgRdResult : Obligations.CfgRdResult := by
  unfold Obligations.CfgRdResult
  intro s
  exact ⟨cfgByte s, exec_cfgRd s, cfgByte_toNat s⟩

/-- Settles O35, by the two states of the reassembler; the read after an `Idle` write gives the written bits back. -/
theorem cfgWrResult : Obligations.CfgWrResult := by
  unfold Obligations.CfgWrResult
  intro s v
  constructor
  · intro hs
    refine ⟨_, exec_cfgWr_of_idle hs v, rfl, ?_⟩
    rw [exec_cfgRd, cfgByte_of_written]
  · intro hs
    exact exec_cfgWr_of_accumulating hs v

/-- Settles O36: a reset builds the whole state from the parameters alone and keeps only the operations to come. -/
theorem sysResetResult : Obligations.SysResetResult := by
  unfold Obligations.SysResetResult
  exact exec_sysReset

/-- Settles O37: the refusal writes the outcome list and nothing else. -/
theorem reservedResult : Obligations.ReservedResult := by
  unfold Obligations.ReservedResult
  intro s op
  exact exec_reserved op s

end Sys2Proof.Proofs.SystemOps
end

/-! A receive loop over `extend` frames (R178, R181): one batch and one call for each of them. -/

section
namespace Sys2Proof.Proofs.HostSession

open Sys2Proof.Machine
open Sys2Proof.Laws

/-- R181: a call that reports progress and more to come. -/
def IsUnfinished (k : Callback) : Prop := ∃ bs, k = .onProgress bs false

/-- R178: the frame is read as an `extend` frame, its payload as the records given. -/
def IsExtend (c : Capability) (f : List Byte) (rs : List TagRecord) : Prop :=
  (∃ code, c.interpretStatus f = .ok (code, .extend)) ∧ c.parseTagPayload f = .ok rs

theorem onItems_append (c : Capability) (items items' : List Item) (x : Session) :
    x.onItems c (items ++ items') = (x.onItems c items).onItems c items' :=
  List.foldl_append

theorem onItem_frame {x : Session} (c : Capability) (f : List Byte) (ok : Bool) (hx : x.phase = .awaitingFrame) :
    x.onItem c (.frame f ok) = x.interpretFrame c f := by
  simp only [Session.onItem, hx]

theorem extend_of_ok {c : Capability} {f : List Byte} {rs : List TagRecord} (x : Session)
    (h : c.parseTagPayload f = .ok rs) :
    x.extend c f =
      { x with
        batches := x.batches ++ [{ frame := f, records := rs }]
        calls := x.calls ++ [.onProgress (x.batches ++ [{ frame := f, records := rs }]) false] } := by
  simp only [Session.extend, h]

theorem onItem_extend {c : Capability} {f : List Byte} {rs : List TagRecord} {x : Session} (ok : Bool)
    (hx : x.phase = .awaitingFrame) (hf : IsExtend c f rs) :
    x.onItem c (.frame f ok) =
      { x with
        batches := x.batches ++ [{ frame := f, records := rs }]
        calls := x.calls ++ [.onProgress (x.batches ++ [{ frame := f, records := rs }]) false] } := by
  obtain ⟨⟨code, hstatus⟩, hpayload⟩ := hf
  rw [onItem_frame c f ok hx, Session.interpretFrame_extend x hstatus rfl, extend_of_ok x hpayload]

/-- R181: by induction over the frames; the session still awaits a frame after each. -/
theorem onItems_extends {c : Capability} {x : Session} {fs : List (List Byte × Bool)} (hx : x.phase = .awaitingFrame)
    (hfs : ∀ f ∈ fs, ∃ rs, IsExtend c f.1 rs) :
    ∃ (bs : List TagBatch) (calls : List Callback),
      x.onItems c (fs.map (fun f => .frame f.1 f.2)) =
        { x with batches := x.batches ++ bs, calls := x.calls ++ calls } ∧
      bs.map (fun b => b.frame) = fs.map (fun f => f.1) ∧ calls.length = fs.length ∧ ∀ k ∈ calls, IsUnfinished k := by
  induction fs generalizing x with
  | nil => exact ⟨[], [], by simp [Session.onItems], rfl, rfl, by simp⟩
  | cons f fs ih =>
    obtain ⟨⟨rs, hf⟩, hrest⟩ := List.forall_mem_cons.1 hfs
    have hitem := onItem_extend f.2 hx hf
    obtain ⟨bs, calls, hrun, hframes, hlen, hcalls⟩ := ih (x := x.onItem c (.frame f.1 f.2)) (by rw [hitem, hx]) hrest
    refine ⟨{ frame := f.1, records := rs } :: bs,
      .onProgress (x.batches ++ [{ frame := f.1, records := rs }]) false :: calls, ?_, ?_, ?_, ?_⟩
    · rw [hitem] at hrun
      simpa [Session.onItems, hitem] using hrun
    · rw [List.map_cons, List.map_cons, hframes]
    · rw [List.length_cons, List.length_cons, hlen]
    · exact List.forall_mem_cons.2 ⟨⟨_, rfl⟩, hcalls⟩

/-- R178: a frame of class terminal-ok. -/
theorem onItem_finish {c : Capability} {f : List Byte} {code : Byte} {name : StatusName} {x : Session} (ok : Bool)
    (hx : x.phase = .awaitingFrame) (hstatus : c.interpretStatus f = .ok (code, name))
    (hname : statusClass name = .terminalOk) : x.onItem c (.frame f ok) = x.finish f := by
  rw [onItem_frame c f ok hx, Session.interpretFrame_finish x hstatus hname]

/-- R181: the whole of a multi-frame response, from a session without batches. -/
theorem onItems_extends_finish {c : Capability} {x : Session} {fs : List (List Byte × Bool)} {last : List Byte}
    {code : Byte} {name : StatusName} (ok : Bool) (hx : x.phase = .awaitingFrame) (hbatches : x.batches = [])
    (hfs : ∀ f ∈ fs, ∃ rs, IsExtend c f.1 rs) (hstatus : c.interpretStatus last = .ok (code, name))
    (hname : statusClass name = .terminalOk) :
    ∃ (calls : List Callback) (bs : List TagBatch),
      (x.onItems c (fs.map (fun f => .frame f.1 f.2) ++ [.frame last ok])).calls = x.calls ++ calls ∧
      calls.length = fs.length + 1 ∧ calls.getLast? = some (.onProgress bs true) ∧
      bs.map (fun b => b.frame) = fs.map (fun f => f.1) ++ [last] ∧ bs.length = fs.length + 1 ∧
      (∀ k ∈ calls.dropLast, IsUnfinished k) ∧
      (x.onItems c (fs.map (fun f => .frame f.1 f.2) ++ [.frame last ok])).phase = .terminalSuccess := by
  obtain ⟨bs, calls, hrun, hframes, hlen, hcalls⟩ := onItems_extends hx hfs
  have hsize : bs.length = fs.length := by simpa using congrArg List.length hframes
  have hlast : x.onItems c (fs.map (fun f => .frame f.1 f.2) ++ [.frame last ok]) =
      (x.onItems c (fs.map (fun f => .frame f.1 f.2))).finish last := by
    rw [onItems_append]
    exact onItem_finish ok (by rw [hrun, hx]) hstatus hname
  rw [hlast, hrun, hbatches, List.nil_append]
  refine ⟨calls ++ [.onProgress (bs ++ [{ frame := last, records := [] }]) true],
    bs ++ [{ frame := last, records := [] }], ?_, by simp [hlen], by simp, by simp [hframes], by simp [hsize], ?_, rfl⟩
  · rw [← List.append_assoc]
    rfl
  · rwa [List.dropLast_concat]

/-! The length-status dialect: the status and the payload are those of FP.PARSE (R136, R178). -/

theorem lsCapability_isExtend (p : Params) (adr cmd : Byte) (payload : List Byte) {f : List Byte} {g : FrameFields}
    {rs : List TagRecord} (hparse : parseFrame f = .ok g) (hstatus : g.status = 0x03#8)
    (hrecords : decodeTlv g.payload = .ok rs) : IsExtend (capabilityOf p (.ls adr cmd payload)) f rs := by
  refine ⟨⟨0x03#8, ?_⟩, (Session.lsParseTagPayload_ok hparse).trans hrecords⟩
  have hread := Session.lsInterpretStatus_ok hparse
  rw [hstatus] at hread
  exact hread

theorem statusClass_of_success_or_finish {b : Byte} (h : b = 0x00#8 ∨ b = 0x01#8) :
    statusClass (statusName b) = .terminalOk := by
  obtain rfl | rfl := h <;> rfl

/-! Sessions that await no frame (R180, R184). -/

theorem onItems_of_not_awaiting {x : Session} (c : Capability) (items : List Item) (hx : x.phase ≠ .awaitingFrame) :
    x.onItems c items = x :=
  List.foldl_fixed' (fun i => Session.onItem_of_not_awaiting c i hx) items

theorem onTransportException_of_not_inTransport {x : Session} (message : String) (hx : x.inTransport = false) :
    x.onTransportException message = x := by
  simp [Session.onTransportException, hx]

theorem onTransportException_of_inTransport {x : Session} (message : String) (hx : x.inTransport = true) :
    x.onTransportException message =
      { x.stop with calls := x.calls ++ [.onError .transport (some (.text message))] } := by
  simp only [Session.onTransportException, hx, if_true]
  rfl

/-- R179, R180: a stopped session has no batches, awaits nothing and polls no more. -/
theorem stop_silent (c : Capability) (x : Session) (items : List Item) (message : String) :
    x.stop.onItems c items = x.stop ∧ x.stop.onTransportException message = x.stop ∧ x.stop.pollsAgain = false :=
  ⟨onItems_of_not_awaiting c items (by simp [Session.stop]), onTransportException_of_not_inTransport message rfl,
    by simp [Session.stop, Session.pollsAgain]⟩

/-! The session and its block: the operations a link issues (R177, R180, R182). -/

theorem issue_rxFlush (l : Link) (react : List Item → Session → Session) :
    l.issue [.rxFlush] react =
      .next { session := react [] l.session
              block := { l.block with rxState := .idle, rxLen := 0#9, rxTarget := 0#9, outcome := [] } } :=
  Session.issue_one (Reassembler.rxFlushResult l.block) react

theorem transportException_of_inTransport {l : Link} (message : String) (hx : l.session.inTransport = true) :
    l.transportException message = l.issue [.rxFlush] (fun _ x => x.onTransportException message) := by
  simp [Link.transportException, hx]

/-- R177, R180: a new attempt begins without batches, whatever the build answers. -/
theorem startScan_batches (l : Link) : ∃ u : Link, l.startScan = .next u ∧ u.session.batches = [] := by
  obtain ⟨item, hbuild⟩ := Session.buildOp_completes l.session.command l.block
  exact ⟨_, (Session.startScan_eq l).trans (Session.issue_one hbuild _), Session.onBuilt_batches _ rfl⟩

theorem poll_of_pollsAgain {l : Link} (h : l.session.pollsAgain = true) : l.poll = l.startScan := by
  simp [Link.poll, h]

theorem poll_of_not_pollsAgain {l : Link} (h : l.session.pollsAgain = false) : l.poll = .next l := by
  simp [Link.poll, h]

end Sys2Proof.Proofs.HostSession
end

/-! The aggregation (R185): what the map holds after each record. -/

section
namespace Sys2Proof.Proofs.Aggregation

open Sys2Proof.Machine

/-- R185: a known tid's entry is counted, with its rssi as it is; every other entry stays. -/
def recount (r : TagRecord) (a : AggregatedTag) : AggregatedTag :=
  if a.tid = r.tid then { a with count := a.count + 1 } else a

/-- R185: the entry of a tid's first record. -/
def firstEntry (r : TagRecord) : AggregatedTag := { tid := r.tid, rssi := r.rssi, count := 1 }

theorem recount_of_same {r : TagRecord} {a : AggregatedTag} (h : a.tid = r.tid) :
    recount r a = { a with count := a.count + 1 } :=
  if_pos h

theorem recount_of_other {r : TagRecord} {a : AggregatedTag} (h : a.tid ≠ r.tid) : recount r a = a :=
  if_neg h

@[simp] theorem recount_tid (r : TagRecord) (a : AggregatedTag) : (recount r a).tid = a.tid := by
  unfold recount; split <;> rfl

/-- The tids of a map, in its order. -/
def tidsOf (acc : List AggregatedTag) : List (List Byte) := acc.map (fun a => a.tid)

@[simp] theorem tidsOf_cons (a : AggregatedTag) (acc : List AggregatedTag) : tidsOf (a :: acc) = a.tid :: tidsOf acc :=
  rfl

theorem mem_tidsOf {a : AggregatedTag} {acc : List AggregatedTag} (h : a ∈ acc) : a.tid ∈ tidsOf acc :=
  List.mem_map_of_mem h

@[simp] theorem tidsOf_map_recount (r : TagRecord) (acc : List AggregatedTag) :
    tidsOf (acc.map (recount r)) = tidsOf acc := by
  simp [tidsOf]

theorem map_recount_of_new {r : TagRecord} {acc : List AggregatedTag} (h : r.tid ∉ tidsOf acc) :
    acc.map (recount r) = acc :=
  (List.map_congr_left fun _ ha => recount_of_other fun heq => h (heq ▸ mem_tidsOf ha)).trans (List.map_id _)

/-- R185: a new tid is inserted at the end. -/
theorem countRecord_of_new {r : TagRecord} {acc : List AggregatedTag} (h : r.tid ∉ tidsOf acc) :
    countRecord r acc = acc ++ [firstEntry r] := by
  induction acc with
  | nil => rfl
  | cons a acc ih =>
    simp only [tidsOf_cons, List.mem_cons, not_or] at h
    obtain ⟨hne, hnew⟩ := h
    rw [countRecord, if_neg (Ne.symm hne), ih hnew, List.cons_append]

/-- R185: the first entry of a tid is its only one, so counting the first counts it. -/
theorem countRecord_of_known {r : TagRecord} {acc : List AggregatedTag} (hnodup : (tidsOf acc).Nodup)
    (h : r.tid ∈ tidsOf acc) : countRecord r acc = acc.map (recount r) := by
  induction acc with
  | nil => cases h
  | cons a acc ih =>
    obtain ⟨hfresh, hrest⟩ := List.nodup_cons.1 hnodup
    by_cases heq : a.tid = r.tid
    · rw [countRecord, if_pos heq, List.map_cons, recount_of_same heq, map_recount_of_new (heq ▸ hfresh)]
    · rw [countRecord, if_neg heq, List.map_cons, recount_of_other heq,
        ih hrest ((List.mem_cons.1 h).resolve_left (Ne.symm heq))]

/-- R185: an entry says of the records with its tid how many there are, and the first one's rssi. -/
structure Summarises (q : List TagRecord) (a : AggregatedTag) : Prop where
  count : a.count = q.countP (fun r => decide (r.tid = a.tid))
  positive : 1 ≤ a.count
  rssi : (q.find? (fun r => decide (r.tid = a.tid))).map (fun r => r.rssi) = some a.rssi

/-- One record more, of any tid. -/
theorem Summarises.recount {q : List TagRecord} {a : AggregatedTag} (h : Summarises q a) (r : TagRecord) :
    Summarises (q ++ [r]) (recount r a) := by
  have hfirst : ((q ++ [r]).find? (fun r' => decide (r'.tid = a.tid))).map (fun r' => r'.rssi) = some a.rssi := by
    obtain ⟨r', hr', hrssi⟩ := Option.map_eq_some_iff.1 h.rssi
    rw [List.find?_append, hr', Option.some_or, Option.map_some, hrssi]
  by_cases heq : a.tid = r.tid
  · rw [recount_of_same heq]
    exact ⟨by simp [h.count, heq], Nat.le_add_left 1 _, hfirst⟩
  · rw [recount_of_other heq]
    exact ⟨by simp [h.count, Ne.symm heq], h.positive, hfirst⟩

/-- The first record of its tid. -/
theorem summarises_firstEntry {q : List TagRecord} {r : TagRecord} (h : r.tid ∉ q.map (fun r' => r'.tid)) :
    Summarises (q ++ [r]) (firstEntry r) := by
  have hother : ∀ r' ∈ q, ¬ decide (r'.tid = r.tid) = true := fun r' hr' heq =>
    h (List.mem_map.2 ⟨r', hr', of_decide_eq_true heq⟩)
  have hcount : q.countP (fun r' => decide (r'.tid = r.tid)) = 0 := List.countP_eq_zero.2 hother
  have hfind : q.find? (fun r' => decide (r'.tid = r.tid)) = none := List.find?_eq_none.2 hother
  refine ⟨?_, Nat.le_refl 1, ?_⟩
  · rw [firstEntry, List.countP_append, hcount]
    simp
  · rw [firstEntry, List.find?_append, hfind]
    simp

/-- R185: what the map is after the records of `q`, as an invariant of the loop over them. -/
structure IsMapOf (q : List TagRecord) (acc : List AggregatedTag) : Prop where
  tids : tidsOf acc = (q.map (fun r => r.tid)).eraseDups
  nodup : (tidsOf acc).Nodup
  entries : ∀ a ∈ acc, Summarises q a

theorem isMapOf_nil : IsMapOf [] [] := ⟨rfl, List.nodup_nil, fun _ ha => nomatch ha⟩

theorem eraseDups_concat_of_mem {l : List (List Byte)} {t : List Byte} (h : t ∈ l) :
    (l ++ [t]).eraseDups = l.eraseDups := by
  simp [List.eraseDups_append, List.removeAll, h]

theorem eraseDups_concat_of_not_mem {l : List (List Byte)} {t : List Byte} (h : t ∉ l) :
    (l ++ [t]).eraseDups = l.eraseDups ++ [t] := by
  simp [List.eraseDups_append, List.removeAll, h, List.eraseDups_cons]

/-- R185: one record more, by whether its tid is in the map. -/
theorem IsMapOf.countRecord {q : List TagRecord} {acc : List AggregatedTag} (h : IsMapOf q acc) (r : TagRecord) :
    IsMapOf (q ++ [r]) (countRecord r acc) := by
  obtain ⟨htids, hnodup, hentries⟩ := h
  have hmem : r.tid ∈ tidsOf acc ↔ r.tid ∈ q.map (fun r' => r'.tid) := by rw [htids, List.mem_eraseDups]
  by_cases hknown : r.tid ∈ tidsOf acc
  · rw [countRecord_of_known hnodup hknown]
    refine ⟨?_, by rwa [tidsOf_map_recount], List.forall_mem_map.2 fun a ha => (hentries a ha).recount r⟩
    rw [tidsOf_map_recount, htids, List.map_append, List.map_singleton, eraseDups_concat_of_mem (hmem.1 hknown)]
  · have hnew : r.tid ∉ q.map (fun r' => r'.tid) := mt hmem.2 hknown
    have happend : tidsOf (acc ++ [firstEntry r]) = tidsOf acc ++ [r.tid] := List.map_append
    rw [countRecord_of_new hknown]
    refine ⟨?_, ?_, fun a ha => ?_⟩
    · rw [happend, htids, List.map_append, List.map_singleton, eraseDups_concat_of_not_mem hnew]
    · rw [happend, ← List.concat_eq_append]
      exact hnodup.concat hknown
    · obtain hold | hlast := List.mem_append.1 ha
      · have hother : a.tid ≠ r.tid := fun heq => hknown (heq ▸ mem_tidsOf hold)
        exact recount_of_other hother ▸ (hentries a hold).recount r
      · exact List.mem_singleton.1 hlast ▸ summarises_firstEntry hnew

/-- R185: by induction over the records in their order. -/
theorem isMapOf_foldl (q : List TagRecord) : IsMapOf q (q.foldl (fun acc r => countRecord r acc) []) := by
  induction q using List.reverseRecOn with
  | nil => exact isMapOf_nil
  | append_singleton q r ih =>
    rw [List.foldl_concat]
    exact ih.countRecord r

end Sys2Proof.Proofs.Aggregation
end

/-! The obligations on the host software beside the block: O58 to O60. -/

section
namespace Sys2Proof.Proofs.HostSession

open Sys2Proof.Machine
open Sys2Proof.Laws
open Sys2Proof.Proofs.Aggregation

/-- Settles O58: the map that the loop has built is the map of all qualifying records. -/
theorem aggregateFirstInsertionWins : Obligations.AggregateFirstInsertionWins := by
  unfold Obligations.AggregateFirstInsertionWins
  intro bs q hq
  have hmap : IsMapOf q (aggregate bs) := hq ▸ isMapOf_foldl (qualifying bs)
  refine ⟨hmap.tids, fun a ha => ?_⟩
  obtain ⟨hcount, hpos, hrssi⟩ := hmap.entries a ha
  exact ⟨hcount, hpos, hrssi⟩

/-- Settles O59: the calls of the `extend` frames, then the one of the terminal frame. -/
theorem multiFrameProgress : Obligations.MultiFrameProgress := by
  unfold Obligations.MultiFrameProgress
  refine ⟨fun c x fs last ok code name hx hbatches hfs hstatus hname => ?_,
    fun p adr cmd payload x fs last ok fields hx hbatches hfs hparse hterminal => ?_, fun p mask x f hlen => ?_⟩
  · refine onItems_extends_finish ok hx hbatches (fun f hf => ?_) hstatus hname
    obtain ⟨k, rs, hextend, hrecords⟩ := hfs f hf
    exact ⟨rs, ⟨k, hextend⟩, hrecords⟩
  · have hextends : ∀ f ∈ fs, ∃ rs, IsExtend (capabilityOf p (.ls adr cmd payload)) f.1 rs := fun f hf => by
      obtain ⟨g, rs, hg, hstatus, hrecords⟩ := hfs f hf
      exact ⟨rs, lsCapability_isExtend p adr cmd payload hg hstatus hrecords⟩
    obtain ⟨calls, bs, hcalls, hlen, hlast, -, hsize, hunfinished, hphase⟩ := onItems_extends_finish ok hx hbatches
      hextends (Session.lsInterpretStatus_ok hparse) (statusClass_of_success_or_finish hterminal)
    exact ⟨calls, bs, _, rfl, hcalls, hlen, hlast, hsize, hunfinished, hphase⟩
  · have hfix := TagDecode.decodeFix_of_length p hlen
    exact ⟨_, hfix, extend_of_ok x (Session.fxParseTagPayload_ok hfix)⟩

/-- Settles O60: a stopped session awaits nothing, RX.FLUSH completes in every state, and the poll loop's condition
decides. -/
theorem stopScanSilences : Obligations.StopScanSilences := by
  unfold Obligations.StopScanSilences
  refine ⟨fun c x items message => ?_, fun l => ?_, fun l message hphase => ?_, fun l => ⟨fun h => ?_, fun h => ?_⟩⟩
  · obtain ⟨hitems, hexception, hpoll⟩ := stop_silent c x items message
    exact ⟨hitems, hexception, rfl, rfl, hpoll, rfl⟩
  · exact ⟨_, issue_rxFlush l _, rfl, rfl⟩
  · have hx := Session.inTransport_iff.2 hphase
    exact ⟨_, (transportException_of_inTransport message hx).trans (issue_rxFlush l _),
      onTransportException_of_inTransport message hx, rfl⟩
  · exact ⟨poll_of_pollsAgain (Session.pollsAgain_iff.2 h), startScan_batches l⟩
  · refine poll_of_not_pollsAgain (Bool.eq_false_iff.2 fun hagain => ?_)
    obtain ⟨hpolling, hphase, hcancelled⟩ := Session.pollsAgain_iff.1 hagain
    simp [hpolling, hphase, hcancelled] at h

end Sys2Proof.Proofs.HostSession
end

/-! Where received bytes are stored (R40, R117). -/

section
namespace Sys2Proof.Proofs.Arrival

open Sys2Proof.Machine
open Sys2Proof.Safety
open Sys2Proof.Laws

theorem storesAt_rxLen (b : Byte) (bs : List Byte) (s : State) : storesAt (b :: bs) s s.rxLen.toNat :=
  ⟨0, s, [], Nat.succ_pos _, rfl, rfl⟩

theorem storesAt_cons {b : Byte} {bs : List Byte} {s u : State} {items : List Item} {a : Nat}
    (h : receiveByte b s = .ok (u, items)) (ha : storesAt bs u a) : storesAt (b :: bs) s a := by
  obtain ⟨k, t, later, hk, hr, hlen⟩ := ha
  refine ⟨k + 1, t, items ++ later, Nat.succ_lt_succ hk, ?_, hlen⟩
  rw [List.take_succ_cons, Rx.receiveAll_cons, h]
  simp [hr, Except.map]

/-- R40: each byte is stored at the `RX_LEN` of its moment, and nowhere else. -/
theorem readByte_of_not_storesAt {bs : List Byte} {s t : State} {items : List Item} {a : Nat}
    (h : receiveAll bs s = .ok (t, items)) (ha : ¬ storesAt bs s a) : readByte t.rxBuf a = readByte s.rxBuf a := by
  induction bs generalizing s items with
  | nil =>
    obtain ⟨rfl, -⟩ : s = t ∧ [] = items := by simpa using h
    rfl
  | cons b bs ih =>
    obtain ⟨u, first, later, hfirst, hlater, -⟩ := Rx.receiveAll_cons_ok h
    obtain ⟨-, -, -, -, -, -, hother⟩ := Rx.receiveByte_frame hfirst
    have hne : a ≠ s.rxLen.toNat := fun heq => ha (heq ▸ storesAt_rxLen b bs s)
    exact (ih hlater fun hstored => ha (storesAt_cons hfirst hstored)).trans (hother a hne)

end Sys2Proof.Proofs.Arrival
end

/-! The errors an instruction can return (R203, R209), and what each leaves of the state (R212). -/

section
namespace Sys2Proof.Proofs.Errors

open Sys2Proof.Machine
open Sys2Proof.Safety
open Sys2Proof.Laws
open Sys2Proof.Proofs.Effects

/-! Instructions that only read. -/

/-- An item that R209 lets an instruction answer: only errors are restricted. -/
def allowsItem (i : Instr) : Item → Bool
  | .err e => mayReturn i e
  | .value _ | .frame _ _ => true

@[simp] theorem allowsItem_err (i : Instr) (e : Err) : allowsItem i (.err e) = mayReturn i e := rfl

theorem tdTlv_answers_allowed (bs : List Byte) (s : State) :
    ∃ x, exec (.tdTlv bs) s = .next (respond [x] s) ∧ allowsItem (.tdTlv bs) x = true := by
  cases hdec : decodeTlv bs with
  | ok rs => exact ⟨_, Records.answerTlv_of_ok hdec s, rfl⟩
  | error e =>
    obtain ⟨rs, h, rest, -, -, -, rfl⟩ := TagDecode.exists_bad_header_of_error hdec
    exact ⟨_, Records.answerTlv_of_error hdec s, rfl⟩

/-- R209 for the reading instructions: five of them can answer an error, and a tag record of its format none. -/
theorem readsOnly_answers_allowed {i : Instr} (hi : readsOnly i = true)
    (hrecord : ∀ f p tid rssi, i = .wireTlvRec f p tid rssi → tid.length ≤ 63) (s : State) :
    ∃ x, exec i s = .next (respond [x] s) ∧ allowsItem i x = true := by
  cases i with
  | txBuild adr cmd p =>
    obtain hfits | hlong := le_or_gt p.length 251
    · exact ⟨_, FrameBuild.exec_txBuild_of_fits adr cmd hfits s, rfl⟩
    · exact ⟨_, FrameBuild.exec_txBuild_of_too_long adr cmd hlong s, rfl⟩
  | fpParse f =>
    obtain ⟨-, -, hok⟩ | ⟨-, herr⟩ := Ops.parseFrame_cases f
    · exact ⟨_, FrameBuild.exec_fpParse_of_ok hok s, rfl⟩
    · exact ⟨_, FrameParse.exec_fpParse_of_error herr s, rfl⟩
  | tdTlv bs => exact tdTlv_answers_allowed bs s
  | wireTlvRec f p tid rssi =>
    exact ⟨_, Records.answerTlv_of_ok (Records.decodeTlv_record f p rssi (hrecord f p tid rssi rfl)) s, rfl⟩
  | tdFix f =>
    by_cases hlen : f.length = 19
    · exact ⟨_, TagDecode.exec_tdFix_of_ok (TagDecode.decodeFix_of_length s.params hlen), rfl⟩
    · exact ⟨_, TagDecode.exec_tdFix_of_error (TagDecode.decodeFix_of_other_length s.params hlen), rfl⟩
  | crcRd | crcBlk | txBuildFx | rxStat | fpCheck | fpStatus | cfgRd | reserved | wireFxCmd | wireTlvHdr
  | statusSuccess | statusFinish | statusOverTime | statusExtend | statusOverNumber | statusAerialFault
  | statusParamError | statusUnrecognized => exact ⟨_, rfl, rfl⟩
  | crcInit | crcUpd | rxByte | rxChunk | rxEos | rxFlush | cfgWr | sysReset | wireLs | wireFxIn => cases hi

/-! Received bytes. -/

/-- R203: received bytes yield no error but ChecksumMismatch, and it only with validation on. -/
theorem mismatch_of_received {bs : List Byte} {s t : State} {items : List Item} {e : Err}
    (h : receiveAll bs s = .ok (t, items)) (he : .err e ∈ items) :
    ∃ f, e = .checksumMismatch f ∧ s.crcCheckEn = true ∧ crcOk f = false := by
  obtain ⟨f, hitem⟩ := Ops.receiveAll_items h _ he
  obtain ⟨hen, hbad, hmismatch⟩ | ⟨-, hframe⟩ := Ops.frameItem_cases s.crcCheckEn f
  · exact ⟨f, Item.err.inj (hitem.trans hmismatch), hen, hbad⟩
  · cases hitem.trans hframe

theorem mayReturn_checksumMismatch (i : Instr) (f : List Byte) :
    mayReturn i (.checksumMismatch f) = (receivedBytes i).isSome := by
  cases i <;> rfl

/-- R119: a byte whose frame is refused leaves the unit `Idle`, and the refusal is its one item. -/
theorem receiveByte_of_error {b : Byte} {s t : State} {items : List Item} {e : Err}
    (h : receiveByte b s = .ok (t, items)) (he : .err e ∈ items) :
    t = goIdle (Rx.afterStore b s) ∧ items = [.err e] := by
  obtain ⟨-, ⟨-, -, rfl⟩ | ⟨-, rfl, f, -, rfl⟩⟩ := Rx.receiveByte_cases h
  · cases he
  · exact ⟨rfl, congrArg (fun x => [x]) (List.mem_singleton.1 he).symm⟩

/-! All instructions. -/

/-- R209: which errors an instruction can return. -/
theorem mayReturn_of_exec {i : Instr} {s t : State} {e : Err} (h : exec i s = .next t) (he : .err e ∈ t.outcome)
    (hrecord : ∀ f p tid rssi, i = .wireTlvRec f p tid rssi → tid.length ≤ 63) : mayReturn i e = true := by
  have heffect := exec_effect h
  cases heffect with
  | read hi x =>
    obtain ⟨y, hy, hallowed⟩ := readsOnly_answers_allowed hi hrecord s
    cases h.symm.trans hy
    obtain rfl : Item.err e = x := by simpa using he
    exact hallowed
  | receive hi hr =>
    obtain ⟨f, rfl, -⟩ := mismatch_of_received hr he
    rw [mayReturn_checksumMismatch, hi]
    rfl
  | rxEos =>
    obtain rfl : e = .transportClosed s.rxLen := by simpa using he
    rfl
  | cfgBusy v hs =>
    obtain rfl : e = .busy s.rxLen := by simpa using he
    rfl
  | crcInit | crcUpd | rxFlush | cfgWrite | sysReset => simp at he

/-- R203. -/
theorem mismatch_of_exec {i : Instr} {s t : State} {f : List Byte} (h : exec i s = .next t)
    (he : .err (.checksumMismatch f) ∈ t.outcome) (hi : mayReturn i (.checksumMismatch f) = true) :
    s.crcCheckEn = true ∧ crcOk f = false := by
  rw [mayReturn_checksumMismatch] at hi
  obtain ⟨bs, hbs⟩ := Option.isSome_iff_exists.1 hi
  rw [exec_of_receivedBytes hbs, Ops.deliver_next] at h
  obtain ⟨u, items, hr, rfl⟩ := h
  obtain ⟨g, hg, hen, hbad⟩ := mismatch_of_received hr he
  obtain rfl := Err.checksumMismatch.inj hg
  exact ⟨hen, hbad⟩

/-- R212: an error of no reassembler operation is the only item, and nothing else has changed. -/
theorem eq_of_stateless_error {i : Instr} {s t : State} {e : Err} (h : Effect i s t) (he : .err e ∈ t.outcome)
    (hclosed : ∀ k, e ≠ .transportClosed k) (hmismatch : ∀ f, e ≠ .checksumMismatch f) : t = respond [.err e] s := by
  cases h with
  | read hi x =>
    obtain rfl : Item.err e = x := by simpa using he
    rfl
  | receive hi hr =>
    obtain ⟨f, rfl, -⟩ := mismatch_of_received hr he
    exact absurd rfl (hmismatch f)
  | rxEos =>
    obtain rfl : e = .transportClosed s.rxLen := by simpa using he
    exact absurd rfl (hclosed s.rxLen)
  | cfgBusy v hs =>
    obtain rfl : e = .busy s.rxLen := by simpa using he
    rfl
  | crcInit | crcUpd | rxFlush | cfgWrite | sysReset => simp at he

/-- R212: an error of RX.EOS or RX.BYTE is answered from the emptied unit, `CFG` and `CRC_ACC` as they were. -/
theorem goIdle_of_rx_error {i : Instr} {s t : State} {e : Err} (h : exec i s = .next t) (he : .err e ∈ t.outcome)
    (hi : i = .rxEos ∨ ∃ b, i = .rxByte b) :
    ∃ u, t = respond [.err e] (goIdle u) ∧ u.dialect = s.dialect ∧ u.crcCheckEn = s.crcCheckEn ∧
      u.crcAcc = s.crcAcc := by
  obtain rfl | ⟨b, rfl⟩ := hi
  · obtain rfl := Ops.raise_next.1 h
    obtain rfl : e = .transportClosed s.rxLen := by simpa using he
    exact ⟨s, rfl, rfl, rfl, rfl⟩
  · obtain ⟨u, items, hr, rfl⟩ := Ops.deliver_next.1 h
    obtain ⟨rfl, rfl⟩ := receiveByte_of_error hr he
    exact ⟨Rx.afterStore b s, rfl, by simp, by simp, by simp⟩

end Sys2Proof.Proofs.Errors
end

/-! The obligations on what errors and received bytes leave alone: O26, O49 and O51. -/

section
namespace Sys2Proof.Proofs.Exceptions

open Sys2Proof.Machine
open Sys2Proof.Laws
open Sys2Proof.Proofs.Errors

/-- Settles O26, by induction on the bytes: each stores at one address, the `RX_LEN` it finds. -/
theorem receivedBytesFrame : Obligations.ReceivedBytesFrame := by
  unfold Obligations.ReceivedBytesFrame
  intro i bs s t hi h
  rw [Effects.exec_of_receivedBytes hi, Ops.deliver_next] at h
  obtain ⟨u, items, hr, rfl⟩ := h
  obtain ⟨hparams, hdialect, hcheck, hacc, hinput, -⟩ := Rx.receiveAll_frame hr
  exact ⟨hparams, hdialect, hcheck, hacc, hinput, fun a ha => Arrival.readByte_of_not_storesAt (t := u) hr ha⟩

/-- Settles O49, by the effects an instruction can have: a reading instruction answers an item it is allowed, received
bytes yield the items of complete frames. -/
theorem errorsByOperation : Obligations.ErrorsByOperation := by
  unfold Obligations.ErrorsByOperation
  intro i s t e h he hrecord
  have hallowed := mayReturn_of_exec h he hrecord
  exact ⟨hallowed, fun f hf => mismatch_of_exec h (hf ▸ he) (hf ▸ hallowed)⟩

/-- Settles O51, by the effects an instruction can have: the two errors left out are those of the reassembler, which
empties itself before it answers them. -/
theorem errorsArePrecise : Obligations.ErrorsArePrecise := by
  unfold Obligations.ErrorsArePrecise
  constructor
  · intro i s t e h he hclosed hmismatch
    exact eq_of_stateless_error (Effects.exec_effect h) he hclosed hmismatch
  · intro i s t e h he hi
    obtain ⟨u, rfl, hdialect, hcheck, hacc⟩ := goIdle_of_rx_error h he hi
    exact ⟨rfl, rfl, rfl, hdialect, hcheck, hacc, rfl⟩

end Sys2Proof.Proofs.Exceptions
end
